-- ==== Sys2Proof/Config.lean ====
section
/-! DEFINITION. The fixed parameters of 00_scope.md R1 and R2. The two open parameters, BASE and
N_ENGINES, are arguments of the platform layer (Machine/Platform.lean, log 12). The spec leaves no
result open, so there is no free value here (93_implementation_defined.md section 1). -/

namespace Sys2Proof.Config

/-- WINDOW_SIZE of R2, in bytes. -/
abbrev windowSize : Nat := 256

/-- KEY_SIZE of R1, in bytes. -/
abbrev keySize : Nat := 32

/-- NONCE_SIZE of R1, in bytes. -/
abbrev nonceSize : Nat := 16

/-- OUTPUT_SIZE of R1, in bytes. -/
abbrev outputSize : Nat := 32

/-- DOUBLE_ROUNDS of R1. -/
abbrev doubleRounds : Nat := 10

end Sys2Proof.Config
end

