-- ==== Sys2Proof/Word.lean ====
section
/-! DEFINITION. The two value types of 00_scope.md R3: `Word32` and `Byte`, both unsigned. Addition
modulo 2^32 and exclusive or of R4 are those of `BitVec`; the rotation of R4 stands in
Machine/Permutation.lean. -/

namespace Sys2Proof

/-- An unsigned 32-bit value (00_scope.md R3). -/
abbrev Word32 := BitVec 32

/-- An unsigned 8-bit value (00_scope.md R3). -/
abbrev Byte := BitVec 8

end Sys2Proof
end

