-- ==== Sys2Proof/Syntax.lean ====
section
/-! DEFINITION. The twelve engine commands of 30_encoding.md R54, one constructor per row of
opcode_table.json. -/

namespace Sys2Proof

/-- The index of a state word: R53, "an unsigned index ... all 16 values are valid indices". -/
abbrev WordIdx := Fin 16

/-- An engine command (30_encoding.md R54). Only QR has operands (R52, R53). -/
inductive Instr where
  | nop
  | loadc
  | loadk
  | loadn
  | load
  | qr (a b c d : WordIdx)
  | colround
  | rowround
  | dround
  | permute
  | extract
  | run
  deriving DecidableEq, Repr

end Sys2Proof
end

