-- ==== Sys2Proof/WellFormed.lean ====
section
/-! DEFINITION. Which command terms the spec gives an encoding: every format-N command, and QR with
pairwise distinct indices (30_encoding.md R58). The range of an index is in its type. -/

namespace Sys2Proof

/-- The four indices of a QR are pairwise distinct (R58). -/
def pairwiseDistinct (a b c d : WordIdx) : Bool :=
  a != b && a != c && a != d && b != c && b != d && c != d

/-- The terms that spell a command (R55, R58). -/
def Instr.wellFormed : Instr → Bool
  | .nop => true
  | .loadc => true
  | .loadk => true
  | .loadn => true
  | .load => true
  | .qr a b c d => pairwiseDistinct a b c d
  | .colround => true
  | .rowround => true
  | .dround => true
  | .permute => true
  | .extract => true
  | .run => true

end Sys2Proof
end

