-- ==== Sys2Proof/Decode.lean ====
section
/-! DEFINITION. The decoder of 30_encoding.md R55, total on every 32-bit word, and the encoder written
from the formats of R51, R52 and R60. -/

namespace Sys2Proof

/-- Why a word spells no command. The engine reports the same ILLEGAL error for all three
(60_exceptions.md R117, R118). -/
inductive Illegal where
  /-- An opcode that is not in the map (R56). -/
  | reservedOpcode
  /-- A non-zero reserved bit (R57). -/
  | reservedBits
  /-- A QR whose indices are not pairwise distinct (R58). -/
  | repeatedIndices
  deriving DecidableEq, Repr

/-- OPC, bits 7:0 (R50). -/
def opcodeField (v : Word32) : BitVec 8 := v.extractLsb' 0 8

/-- RSVD of format N, bits 31:8 (R51). -/
def reservedN (v : Word32) : BitVec 24 := v.extractLsb' 8 24

/-- RSVD of format Q, bits 31:24 (R52). -/
def reservedQ (v : Word32) : BitVec 8 := v.extractLsb' 24 8

/-- A, bits 11:8 (R52). -/
def fieldA (v : Word32) : WordIdx := (v.extractLsb' 8 4).toFin

/-- B, bits 15:12 (R52). -/
def fieldB (v : Word32) : WordIdx := (v.extractLsb' 12 4).toFin

/-- C, bits 19:16 (R52). -/
def fieldC (v : Word32) : WordIdx := (v.extractLsb' 16 4).toFin

/-- D, bits 23:20 (R52). -/
def fieldD (v : Word32) : WordIdx := (v.extractLsb' 20 4).toFin

/-- The opcode of QR (R54). -/
def qrOpcode : BitVec 8 := 0x08#8

/-- The format-N rows of the opcode map (R54). -/
def plainCommands : List (BitVec 8 × Instr) :=
  [(0x00#8, .nop), (0x01#8, .loadc), (0x02#8, .loadk), (0x03#8, .loadn), (0x04#8, .load),
   (0x09#8, .colround), (0x0A#8, .rowround), (0x0B#8, .dround), (0x0C#8, .permute),
   (0x10#8, .extract), (0x20#8, .run)]

/-- The format-Q branch of R55: reserved bits, then distinct indices. -/
def decodeQr (v : Word32) : Except Illegal Instr :=
  if reservedQ v ≠ 0#8 then .error .reservedBits
  else if pairwiseDistinct (fieldA v) (fieldB v) (fieldC v) (fieldD v) then
    .ok (.qr (fieldA v) (fieldB v) (fieldC v) (fieldD v))
  else .error .repeatedIndices

/-- The format-N branch of R55: a known opcode, then reserved bits. -/
def decodePlain (v : Word32) : Except Illegal Instr :=
  match plainCommands.lookup (opcodeField v) with
  | none => .error .reservedOpcode
  | some i => if reservedN v ≠ 0#24 then .error .reservedBits else .ok i

/-- `decode` of R55, rejecting by name. -/
def decode (v : Word32) : Except Illegal Instr :=
  if opcodeField v = qrOpcode then decodeQr v else decodePlain v

/-- The format-N word of an opcode (R51). -/
def plainWord (opc : BitVec 8) : Word32 := opc.setWidth 32

/-- An index in its place of the format-Q word (R52). -/
def placed (i : WordIdx) (lo : Nat) : Word32 := BitVec.ofNat 32 i.val <<< lo

/-- The format-Q word of QR: `0x08 | a << 8 | b << 12 | c << 16 | d << 20` (R52, R60). -/
def qrWord (a b c d : WordIdx) : Word32 :=
  qrOpcode.setWidth 32 ||| placed a 8 ||| placed b 12 ||| placed c 16 ||| placed d 20

/-- The word of a command (R51, R52, R54, R60). -/
def encode : Instr → Word32
  | .nop => plainWord 0x00#8
  | .loadc => plainWord 0x01#8
  | .loadk => plainWord 0x02#8
  | .loadn => plainWord 0x03#8
  | .load => plainWord 0x04#8
  | .qr a b c d => qrWord a b c d
  | .colround => plainWord 0x09#8
  | .rowround => plainWord 0x0A#8
  | .dround => plainWord 0x0B#8
  | .permute => plainWord 0x0C#8
  | .extract => plainWord 0x10#8
  | .run => plainWord 0x20#8

/-- `mask` of the command's row of the opcode map (R54). -/
def Instr.mask : Instr → Word32
  | .nop => 0xFFFFFFFF#32
  | .loadc => 0xFFFFFFFF#32
  | .loadk => 0xFFFFFFFF#32
  | .loadn => 0xFFFFFFFF#32
  | .load => 0xFFFFFFFF#32
  | .qr _ _ _ _ => 0xFF0000FF#32
  | .colround => 0xFFFFFFFF#32
  | .rowround => 0xFFFFFFFF#32
  | .dround => 0xFFFFFFFF#32
  | .permute => 0xFFFFFFFF#32
  | .extract => 0xFFFFFFFF#32
  | .run => 0xFFFFFFFF#32

/-- `match` of the command's row of the opcode map (R54). -/
def Instr.matchWord : Instr → Word32
  | .nop => 0x00000000#32
  | .loadc => 0x00000001#32
  | .loadk => 0x00000002#32
  | .loadn => 0x00000003#32
  | .load => 0x00000004#32
  | .qr _ _ _ _ => 0x00000008#32
  | .colround => 0x00000009#32
  | .rowround => 0x0000000A#32
  | .dround => 0x0000000B#32
  | .permute => 0x0000000C#32
  | .extract => 0x00000010#32
  | .run => 0x00000020#32

/-- The instruction read from a table row's word of `nbits` bits, all higher bits 0. Every row has 32
bits; a longer row would be no command word (R50). -/
def decodeTableWord (nbits w : Nat) : Option Instr :=
  if nbits ≤ 32 then
    match decode (BitVec.ofNat 32 (w % 2 ^ nbits)) with
    | .ok i => some i
    | .error _ => none
  else none

end Sys2Proof
end

