-- ==== Sys2Proof/Machine/State.lean ====
section
/-! DEFINITION. The engine's state (10_state.md R10 to R28), the model's own fields for what the outside
does next, the reasons a run stops, and the state after reset (R28). -/

namespace Sys2Proof.Machine

/-- The buffer bytes of the window as (offset, byte) pairs, offsets strictly rising. An offset that is
not listed holds `⊥` (10_state.md R13 to R15; log 2). -/
abbrev Memory := List Host.Cell

/-- ERRCODE of STATUS (60_exceptions.md R113). The reserved codes 3 to 15 are never written. -/
inductive ErrCode where
  | none
  | length
  | illegal
  deriving DecidableEq, Repr

/-- ERRPARAM of STATUS (60_exceptions.md R114). -/
inductive ErrParam where
  | none
  | output
  | key
  | nonce
  deriving DecidableEq, Repr

/-- The fields of STATUS (10_state.md R18). The reserved bits hold nothing and read 0; the word the host
reads is `Status.word` of Machine/Flags.lean. -/
structure Status where
  busy : Bool
  done : Bool
  err : Bool
  errCode : ErrCode
  errParam : ErrParam
  deriving DecidableEq, Repr

/-- One entry of a host program (30_encoding.md R61, R62): an access of `n` bytes at window offset
`addr`, or the WAIT loop. Width and offset are any numbers, so that every illegal access of
20_memory.md R34 can be written down. -/
inductive HostOp where
  | read (addr n : Nat)
  | write (addr n : Nat) (v : Word32)
  | wait
  deriving DecidableEq, Repr

/-- Who moves at a step: the two agents of 00_scope.md R7, or the reset event of
70_reset_and_hazards.md R130. -/
inductive Turn where
  | host
  | engine
  | reset
  deriving DecidableEq, Repr

/-- The state. `none` in a state word or in CMDLATCH is the spec's own `⊥` (10_state.md R10, R26;
log 1). PARAMS is hardwired (R25) and CMD stores nothing (R17), so neither is a field. -/
structure State where
  /-- X[0] .. X[15] (R10). -/
  x : Vector (Option Word32) 16
  /-- KEYBUF, NONCEBUF and OUTBUF, by window offset (R13 to R15). -/
  mem : Memory
  /-- CMDLATCH (R26). -/
  cmdLatch : Option Word32
  /-- STATUS (R18). -/
  status : Status
  /-- EINFO0 (R22). -/
  einfo0 : Word32
  /-- EINFO1 (R23). -/
  einfo1 : Word32
  /-- OUTLEN (R24). -/
  outLen : Word32
  /-- KEYLEN (R24). -/
  keyLen : Word32
  /-- NONCELEN (R24). -/
  nonceLen : Word32
  /-- The model's own: what host reads returned, newest first (log 5). -/
  replies : List Word32
  /-- The model's own: the host's accesses still to be made, oldest first (log 3). -/
  host : List HostOp
  /-- The model's own: who moves at the coming steps (log 4). -/
  turns : List Turn
  deriving DecidableEq, Repr

/-- The faults of 60_exceptions.md R112. A fault ends the run; each is SAFE: the model stops where real
hardware might return some value. -/
inductive Fault where
  /-- UNWRITTEN: raised by a host read of a buffer or XWIN and by a command body that reads a cell
  holding `⊥`: 00_scope.md R6, "whichever agent reads it, the model faults with `Fault(UNWRITTEN)`", and
  R112's table. The spec's own outcome, and not for want of a reset value: R28 gives the cell `⊥`. Safe. -/
  | unwritten
  /-- BUSY_ACCESS: raised by a host write, or a host read of a buffer or XWIN, while BUSY = 1
  (20_memory.md R40). Safe. -/
  | busyAccess
  /-- BAD_ACCESS: raised by a host access that breaks 20_memory.md R34 or R35. Safe. -/
  | badAccess
  deriving DecidableEq, Repr

/-- The refusals. No command is refused: every row of the opcode table has its meaning. -/
inductive Refusal where
  /-- Raised by an arm of `exec` whose instruction has no meaning yet; no arm raises it. Safe. -/
  | notModelled (mnemonic : String)
  deriving DecidableEq, Repr

/-- The state after reset (10_state.md R28). The three fields of the model's own are empty
(DESIGN CHOICE, logs 3 to 5). -/
def State.reset : State where
  x := Vector.replicate 16 none
  mem := []
  cmdLatch := none
  status := ⟨false, false, false, .none, .none⟩
  einfo0 := 0#32
  einfo1 := 0#32
  outLen := 0#32
  keyLen := 0#32
  nonceLen := 0#32
  replies := []
  host := []
  turns := []

end Sys2Proof.Machine
end

