-- ==== Sys2Proof/Machine/Flags.lean ====
section
/-! DEFINITION. The STATUS register: its word and the three ways it changes (10_state.md R18 to R21;
60_exceptions.md R110, R111, R115). The engine has no arithmetic flags (00_scope.md R4). -/

namespace Sys2Proof.Machine

/-- The code in bits 7:4 of STATUS (60_exceptions.md R113). -/
def ErrCode.bits : ErrCode → BitVec 4
  | .none => 0#4
  | .length => 1#4
  | .illegal => 2#4

/-- The code in bits 9:8 of STATUS (60_exceptions.md R114). -/
def ErrParam.bits : ErrParam → BitVec 2
  | .none => 0#2
  | .output => 1#2
  | .key => 2#2
  | .nonce => 3#2

/-- STATUS as the host reads it, the reserved bits 3 and 31:10 being 0 (10_state.md R18). -/
def Status.word (st : Status) : Word32 :=
  0#22 ++ st.errParam.bits ++ st.errCode.bits ++ 0#1 ++ BitVec.ofBool st.err
    ++ BitVec.ofBool st.done ++ BitVec.ofBool st.busy

/-- STATUS after an issue (60_exceptions.md R110). -/
def Status.issued : Status := ⟨true, false, false, .none, .none⟩

/-- STATUS after a body that neither signalled nor faulted (60_exceptions.md R111): only BUSY and DONE
are written (log 15). -/
def Status.completed (st : Status) : Status := { st with busy := false, done := true }

/-- STATUS after `signal Error(code, param, ..)` (60_exceptions.md R115). -/
def Status.signalled (code : ErrCode) (param : ErrParam) : Status := ⟨false, false, true, code, param⟩

end Sys2Proof.Machine
end

