-- ==== Sys2Proof/Machine/Ops.lean ====
section
/-! DEFINITION. The named operations over memory, registers and the error report: one byte of memory,
the little-endian codec over it (20_memory.md R36 to R38; 40_codec_loader.md R66, R67), the state words,
issue, completion, `signal Error` (the engine's only "trap entry", 60_exceptions.md R115, R120; its
"return" is the next issue, R121) and reset. -/

namespace Sys2Proof.Machine

/-- What a step or a command answers. -/
abbrev Result := Host.Outcome State Fault Refusal

/-! ### One byte of memory -/

/-- The byte at an offset, `none` where it holds `⊥`. -/
def Memory.read : Memory → Nat → Option Byte
  | [], _ => none
  | (k, b) :: m, a => if k = a then some b else Memory.read m a

/-- The memory with byte `b` at offset `a`, offsets kept strictly rising. -/
def Memory.write : Memory → Nat → Byte → Memory
  | [], a, b => [(a, b)]
  | (k, c) :: m, a, b =>
    if a < k then (a, b) :: (k, c) :: m
    else if a = k then (a, b) :: m
    else (k, c) :: Memory.write m a b

/-- Every listed offset is above `k`, and the offsets rise strictly. -/
def Memory.risesFrom : Nat → Memory → Bool
  | _, [] => true
  | k, (a, _) :: m => decide (k ≤ a) && Memory.risesFrom (a + 1) m

/-- The canonical form: offsets strictly rising. An unlisted offset reads as no value, so no entry can
equal it. -/
def Memory.wf (m : Memory) : Bool := Memory.risesFrom 0 m

/-! ### The little-endian codec -/

/-- Byte `j` of a word, bits `8j+7 : 8j` (20_memory.md R36). -/
def byteOf (v : Word32) (j : Nat) : Byte := v.extractLsb' (8 * j) 8

/-- `n` bytes assembled little-endian, byte 0 in bits 7:0; `none` if one is `⊥` (20_memory.md R37). -/
def loadLE (m : Memory) (off : Nat) : Nat → Option Word32
  | 0 => some 0#32
  | n + 1 =>
    match loadLE m off n, m.read (off + n) with
    | some v, some b => some (v ||| (b.setWidth 32 <<< (8 * n)))
    | _, _ => none

/-- The low `n` bytes of a word written little-endian (20_memory.md R38). -/
def storeLE (m : Memory) (off : Nat) (v : Word32) : Nat → Memory
  | 0 => m
  | n + 1 => (storeLE m off v n).write (off + n) (byteOf v n)

/-- Four bytes as a word, byte 0 in bits 7:0 (40_codec_loader.md R66). -/
def wordOfBytes (b0 b1 b2 b3 : Byte) : Word32 :=
  b0.setWidth 32 ||| b1.setWidth 32 <<< 8 ||| b2.setWidth 32 <<< 16 ||| b3.setWidth 32 <<< 24

/-- `LoadLE32` (40_codec_loader.md R66), the buffer named by its window offset. -/
def loadLE32 (m : Memory) (off : Nat) : Option Word32 := loadLE m off 4

/-- `StoreLE32` (40_codec_loader.md R67). -/
def storeLE32 (m : Memory) (off : Nat) (v : Word32) : Memory := storeLE m off v 4

/-- Words stored one after another, four bytes each. -/
def storeWords (m : Memory) (off : Nat) : List Word32 → Memory
  | [] => m
  | w :: ws => storeWords (storeLE32 m off w) (off + 4) ws

/-! ### The state words -/

/-- X[i] (00_scope.md R5), `none` where it holds `⊥`. -/
def State.readX (s : State) (i : WordIdx) : Option Word32 := s.x[i]

/-- X[i] <- v (00_scope.md R5). -/
def State.writeX (s : State) (i : WordIdx) (v : Word32) : State :=
  { s with x := s.x.set i (some v) }

/-- The writes of a list, in order. -/
def State.writeXs (s : State) : List (WordIdx × Word32) → State
  | [] => s
  | (i, v) :: ws => (s.writeX i v).writeXs ws

/-- All sixteen words at once. -/
def State.setWords (s : State) (w : Vector Word32 16) : State :=
  { s with x := Vector.ofFn fun i => some w[i] }

/-- The buffers at once. -/
def State.setMem (s : State) (m : Memory) : State := { s with mem := m }

/-- Several cells read before anything is written: their values, or `none` if one holds `⊥`
(00_scope.md R6). -/
def collect {α : Type} {n : Nat} (f : Fin n → Option α) : Option (Vector α n) :=
  if h : ∀ i, (f i).isSome then some (Vector.ofFn fun i => (f i).get (h i)) else none

/-! ### Issue, completion, error report, reset -/

/-- `issue(v)` (60_exceptions.md R110). -/
def State.issue (s : State) (v : Word32) : State :=
  { s with cmdLatch := some v, status := Status.issued, einfo0 := 0#32, einfo1 := 0#32 }

/-- The end of a body that neither signalled nor faulted (60_exceptions.md R111). -/
def State.complete (s : State) : State := { s with status := s.status.completed }

/-- `signal Error(code, param, info0, info1)` (60_exceptions.md R115). -/
def State.signalError (s : State) (code : ErrCode) (param : ErrParam) (info0 info1 : Word32) : State :=
  { s with status := Status.signalled code param, einfo0 := info0, einfo1 := info1 }

/-- The ILLEGAL report of a rejected command word (60_exceptions.md R117). -/
def State.signalIllegal (s : State) (v : Word32) : State := s.signalError .illegal .none v 0#32

/-- How an engine step ends once a command's body is known: `none` is a body that read `⊥`,
which raises UNWRITTEN (60_exceptions.md R111, R112; 00_scope.md R6; each command's own rule). -/
def endBody : Option State → Result
  | some t => .next t.complete
  | none => .fault .unwritten

/-- The reset event (70_reset_and_hazards.md R130): every item of the engine's state takes its value of
10_state.md R28. What the outside does next and what it has read are the outside's own (log 11). -/
def State.resetEngine (s : State) : State :=
  { State.reset with replies := s.replies, host := s.host, turns := s.turns }

end Sys2Proof.Machine
end

