-- ==== Sys2Proof/Machine/Operands.lean ====
section
/-! DEFINITION. The implicit operands: where the buffers lie in the window (20_memory.md R33), the fixed
word positions of the loader and the extractor (40_codec_loader.md R69; 42_extract_run.md R95), the
groups of the two phases (41_permutation.md R82), and the reads each body makes before its first write. -/

namespace Sys2Proof.Machine

/-- The offset of KEYBUF[0] (R33). -/
abbrev keyBase : Nat := 0x20

/-- The offset of NONCEBUF[0] (R33). -/
abbrev nonceBase : Nat := 0x40

/-- The offset of OUTBUF[0] (R33). -/
abbrev outBase : Nat := 0x60

/-- The offset of X[0] in XWIN (R33). -/
abbrev xwinBase : Nat := 0x80

/-- CPOS of R69. -/
def cpos : List WordIdx := [0, 5, 10, 15]

/-- CVAL of R69. -/
def cval : List Word32 := [0x61707865#32, 0x3320646e#32, 0x79622d32#32, 0x6b206574#32]

/-- KPOS of R69. -/
def kpos : List WordIdx := [1, 2, 3, 4, 11, 12, 13, 14]

/-- NPOS of R69. -/
def npos : List WordIdx := [6, 7, 8, 9]

/-- OPOS of R95. -/
def opos : Vector WordIdx 8 := #v[0, 5, 10, 15, 6, 7, 8, 9]

/-- A group of four positions in the order the quarter-round takes them (R82). -/
abbrev Group := WordIdx × WordIdx × WordIdx × WordIdx

/-- COL of R82. -/
def colGroups : List Group := [(0, 4, 8, 12), (5, 9, 13, 1), (10, 14, 2, 6), (15, 3, 7, 11)]

/-- ROW of R82. -/
def rowGroups : List Group := [(0, 1, 2, 3), (5, 6, 7, 4), (10, 11, 8, 9), (15, 12, 13, 14)]

/-- The eight key words (40_codec_loader.md R71). -/
def State.keyWords (s : State) : Option (Vector Word32 8) :=
  collect fun i => loadLE32 s.mem (keyBase + 4 * i.val)

/-- The four nonce words (40_codec_loader.md R72). -/
def State.nonceWords (s : State) : Option (Vector Word32 4) :=
  collect fun i => loadLE32 s.mem (nonceBase + 4 * i.val)

/-- All sixteen state words (41_permutation.md R87). -/
def State.allWords (s : State) : Option (Vector Word32 16) := collect fun i => s.readX i

/-- The eight words the extractor emits (42_extract_run.md R96). -/
def State.outWords (s : State) : Option (Vector Word32 8) := collect fun j => s.readX opos[j]

end Sys2Proof.Machine
end

