-- ==== Sys2Proof/Machine/Bus.lean ====
section
/-! DEFINITION. Host accesses to the register window: the map, the legality and busy checks, `MemRead`
and `MemWrite` (20_memory.md R30 to R41). -/

namespace Sys2Proof.Machine

/-- The mapped regions of R33. -/
inductive Region where
  | ctrl
  | keybuf
  | noncebuf
  | outbuf
  | xwin
  deriving DecidableEq, Repr

/-- The direction of an access. -/
inductive Dir where
  | rd
  | wr
  deriving DecidableEq, Repr

/-- The region of a window offset, `none` where it is unmapped (R33). -/
def regionOf (addr : Nat) : Option Region :=
  if addr < 0x20 then some .ctrl
  else if addr < 0x40 then some .keybuf
  else if addr < 0x50 then some .noncebuf
  else if addr < 0x60 then none
  else if addr < 0x80 then some .outbuf
  else if addr < 0xC0 then some .xwin
  else none

/-- The widths a region takes (R33, R34). -/
def Region.takesWidth : Region → Nat → Bool
  | .ctrl, n => n == 4
  | .keybuf, n => n == 1 || n == 2 || n == 4
  | .noncebuf, n => n == 1 || n == 2 || n == 4
  | .outbuf, n => n == 1 || n == 2 || n == 4
  | .xwin, n => n == 4

/-- The rights of a register: CMD is write-only; STATUS, EINFO0, EINFO1 and PARAMS are read-only (R35). -/
def rightsOk (addr : Nat) : Dir → Bool
  | .rd => addr != 0x00
  | .wr => addr != 0x04 && addr != 0x08 && addr != 0x0C && addr != 0x1C

/-- `check_access` (R34, R35): the region of a legal access, `none` for BAD_ACCESS. -/
def checkAccess (addr n : Nat) (d : Dir) : Option Region :=
  match regionOf addr with
  | none => none
  | some r =>
    if r.takesWidth n && addr % n == 0 && regionOf (addr + n - 1) == some r && rightsOk addr d
    then some r else none

/-- `check_busy` (R40): whether an access may pass. -/
def busyOk (s : State) (r : Region) : Dir → Bool
  | .rd => !s.status.busy || r == .ctrl
  | .wr => !s.status.busy

/-- PARAMS, hardwired (10_state.md R25). -/
def paramsWord : Word32 :=
  0#8 ++ BitVec.ofNat 8 Config.nonceSize ++ BitVec.ofNat 8 Config.keySize ++ BitVec.ofNat 8 Config.outputSize

/-- `reg_read` of a readable control register (R31, R33). -/
def regRead (s : State) (addr : Nat) : Word32 :=
  if addr = 0x04 then s.status.word
  else if addr = 0x08 then s.einfo0
  else if addr = 0x0C then s.einfo1
  else if addr = 0x10 then s.outLen
  else if addr = 0x14 then s.keyLen
  else if addr = 0x18 then s.nonceLen
  else paramsWord

/-- The write of a writable control register: CMD issues, the others are length registers (R32). -/
def regWrite (s : State) (addr : Nat) (v : Word32) : State :=
  if addr = 0x00 then s.issue v
  else if addr = 0x10 then { s with outLen := v }
  else if addr = 0x14 then { s with keyLen := v }
  else { s with nonceLen := v }

/-- The state word an XWIN offset names (R39). -/
def xwinIdx (addr : Nat) : WordIdx := Fin.ofNat 16 ((addr - xwinBase) / 4)

/-- A read of a legal region that the busy check lets pass; `none` is a cell holding `⊥`. -/
def regionRead (s : State) (r : Region) (addr n : Nat) : Option Word32 :=
  match r with
  | .ctrl => some (regRead s addr)
  | .keybuf => loadLE s.mem addr n
  | .noncebuf => loadLE s.mem addr n
  | .outbuf => loadLE s.mem addr n
  | .xwin => s.readX (xwinIdx addr)

/-- A write of a legal region that the busy check lets pass. -/
def regionWrite (s : State) (r : Region) (addr n : Nat) (v : Word32) : State :=
  match r with
  | .ctrl => regWrite s addr v
  | .keybuf => s.setMem (storeLE s.mem addr v n)
  | .noncebuf => s.setMem (storeLE s.mem addr v n)
  | .outbuf => s.setMem (storeLE s.mem addr v n)
  | .xwin => s.writeX (xwinIdx addr) v

/-- `MemRead` (R31): legality, then busy, then the region's value, zero-extended to 32 bits, or UNWRITTEN
where a cell of it holds `⊥` (R37, R39). -/
def memRead (addr n : Nat) (s : State) : Except Fault Word32 :=
  match checkAccess addr n .rd with
  | none => .error .badAccess
  | some r =>
    if busyOk s r .rd then
      match regionRead s r addr n with
      | some v => .ok v
      | none => .error .unwritten
    else .error .busyAccess

/-- `MemWrite` (R32) of the low `8n` bits of `v`: legality, then busy, then the region's effect. -/
def memWrite (addr n : Nat) (v : Word32) (s : State) : Except Fault State :=
  match checkAccess addr n .wr with
  | none => .error .badAccess
  | some r => if busyOk s r .wr then .ok (regionWrite s r addr n v) else .error .busyAccess

/-- A host read as a step: the value goes to the host, nothing else changes (R31, R41; log 5). -/
def hostRead (addr n : Nat) (s : State) : Result :=
  match memRead addr n s with
  | .ok v => .next { s with replies := v :: s.replies }
  | .error f => .fault f

/-- A host write as a step (R32, R41). -/
def hostWrite (addr n : Nat) (v : Word32) (s : State) : Result :=
  match memWrite addr n v s with
  | .ok t => .next t
  | .error f => .fault f

end Sys2Proof.Machine
end

