-- ==== Sys2Proof/Machine/Loader.lean ====
section
/-! DEFINITION. The loader family of 40_codec_loader.md: LOADC, LOADK, LOADN, LOAD. A body answers `none`
where it reads a byte holding `⊥`, before any write (R71 to R73). -/

namespace Sys2Proof.Machine

/-- The constants' writes (R70). -/
def State.placeConstants (s : State) : State := s.writeXs (cpos.zip cval)

/-- The key words' writes (R71). -/
def State.placeKey (s : State) (k : Vector Word32 8) : State := s.writeXs (kpos.zip k.toList)

/-- The nonce words' writes (R72). -/
def State.placeNonce (s : State) (n : Vector Word32 4) : State := s.writeXs (npos.zip n.toList)

/-- The body of LOAD (R73): every read before the first write. -/
def loadBody (s : State) : Option State :=
  match s.keyWords, s.nonceWords with
  | some k, some n => some ((s.placeConstants.placeKey k).placeNonce n)
  | _, _ => none

/-- LOADC (R70). -/
def execLoadc (s : State) : Result := endBody (some s.placeConstants)

/-- LOADK (R71). -/
def execLoadk (s : State) : Result := endBody (s.keyWords.map s.placeKey)

/-- LOADN (R72). -/
def execLoadn (s : State) : Result := endBody (s.nonceWords.map s.placeNonce)

/-- LOAD (R73). -/
def execLoad (s : State) : Result := endBody (loadBody s)

end Sys2Proof.Machine
end

