-- ==== Sys2Proof/Machine/Permutation.lean ====
section
/-! DEFINITION. The permutation family of 41_permutation.md: the quarter-round and QR, COLROUND,
ROWROUND, DROUND, PERMUTE. There is no feed-forward (R88). -/

namespace Sys2Proof.Machine

/-- `rotl32` of 00_scope.md R4. -/
def rotl32 (v : Word32) (n : Nat) : Word32 := (v <<< n) ||| (v >>> (32 - n))

/-- The quarter-round (R80): `b`, `c`, `d`, `a` in turn, each from the words already updated. All four
change (90_conflicts.md C1). -/
def quarterRound (a b c d : Word32) : Word32 × Word32 × Word32 × Word32 :=
  let b' := b ^^^ rotl32 (a + d) 7
  let c' := c ^^^ rotl32 (b' + a) 9
  let d' := d ^^^ rotl32 (c' + b') 13
  let a' := a ^^^ rotl32 (d' + c') 18
  (a', b', c', d')

/-- The sixteen words, all holding values. -/
abbrev Words := Vector Word32 16

/-- The quarter-round on one group (R82). -/
def applyGroup (w : Words) (g : Group) : Words :=
  let r := quarterRound w[g.1] w[g.2.1] w[g.2.2.1] w[g.2.2.2]
  (((w.set g.1 r.1).set g.2.1 r.2.1).set g.2.2.1 r.2.2.1).set g.2.2.2 r.2.2.2

/-- The column phase (R83), groups in the listed order. -/
def colPhase (w : Words) : Words := colGroups.foldl applyGroup w

/-- The row phase (R84), groups in the listed order. -/
def rowPhase (w : Words) : Words := rowGroups.foldl applyGroup w

/-- The double round (R85): the column phase, then the row phase. -/
def doubleRound (w : Words) : Words := rowPhase (colPhase w)

/-- `n` double rounds in order. -/
def rounds : Nat → Words → Words
  | 0, w => w
  | n + 1, w => rounds n (doubleRound w)

/-- The permutation (R86): ten double rounds. -/
def permuteWords (w : Words) : Words := rounds Config.doubleRounds w

/-- A body over all sixteen words: `none` if one holds `⊥`, before any write (R87). -/
def onAllWords (f : Words → Words) (s : State) : Option State :=
  s.allWords.map fun w => s.setWords (f w)

/-- The body of QR (R81): the four words are read, `none` if one holds `⊥`, then written. -/
def qrBody (a b c d : WordIdx) (s : State) : Option State :=
  match s.readX a, s.readX b, s.readX c, s.readX d with
  | some wa, some wb, some wc, some wd =>
    let r := quarterRound wa wb wc wd
    some (s.writeXs [(a, r.1), (b, r.2.1), (c, r.2.2.1), (d, r.2.2.2)])
  | _, _, _, _ => none

/-- QR (R81). The decoder never gives indices that are not pairwise distinct; such a term is illegal
(30_encoding.md R58) and signals ILLEGAL with its own word (log 8). -/
def execQr (a b c d : WordIdx) (s : State) : Result :=
  if pairwiseDistinct a b c d then endBody (qrBody a b c d s)
  else .next (s.signalIllegal (encode (.qr a b c d)))

/-- COLROUND (R83). -/
def execColround (s : State) : Result := endBody (onAllWords colPhase s)

/-- ROWROUND (R84). -/
def execRowround (s : State) : Result := endBody (onAllWords rowPhase s)

/-- DROUND (R85). -/
def execDround (s : State) : Result := endBody (onAllWords doubleRound s)

/-- PERMUTE (R86). -/
def execPermute (s : State) : Result := endBody (onAllWords permuteWords s)

end Sys2Proof.Machine
end

