-- ==== Sys2Proof/Machine/Extract.lean ====
section
/-! DEFINITION. The family of 42_extract_run.md: EXTRACT, RUN and NOP, and the length check of RUN. -/

namespace Sys2Proof.Machine

/-- The first violated length: which buffer, the actual length, the required length (R97). -/
structure LengthError where
  param : ErrParam
  actual : Word32
  required : Word32
  deriving DecidableEq, Repr

/-- `Validate()` (R97): output, then key, then nonce; the first violation only (90_conflicts.md C4). -/
def validate (s : State) : Option LengthError :=
  if s.outLen ≠ 32#32 then some ⟨.output, s.outLen, 32#32⟩
  else if s.keyLen ≠ 32#32 then some ⟨.key, s.keyLen, 32#32⟩
  else if s.nonceLen ≠ 16#32 then some ⟨.nonce, s.nonceLen, 16#32⟩
  else none

/-- The body of EXTRACT (R96): the eight words are read, `none` if one holds `⊥`, then stored. -/
def extractBody (s : State) : Option State :=
  s.outWords.map fun ws => s.setMem (storeWords s.mem outBase ws.toList)

/-- The bodies of LOAD, PERMUTE and EXTRACT in turn (R98). -/
def deriveBody (s : State) : Option State :=
  ((loadBody s).bind (onAllWords permuteWords)).bind extractBody

/-- NOP (R101). -/
def execNop (s : State) : Result := endBody (some s)

/-- EXTRACT (R96). -/
def execExtract (s : State) : Result := endBody (extractBody s)

/-- RUN (R98): a length error is signalled before any read (60_exceptions.md R116). -/
def execRun (s : State) : Result :=
  match validate s with
  | some e => .next (s.signalError .length e.param e.actual e.required)
  | none => endBody (deriveBody s)

end Sys2Proof.Machine
end

