-- ==== Sys2Proof/Machine/Dispatch.lean ====
section
/-! DEFINITION. The dispatch of the engine step (60_exceptions.md R111): one arm per command. -/

namespace Sys2Proof.Machine

/-- What the engine does with a decoded command: its body and how the step ends (R111). -/
def exec (i : Instr) (s : State) : Host.Outcome State Fault Refusal :=
  match i with
  | .nop => Sys2Proof.Machine.execNop s
  | .loadc => Sys2Proof.Machine.execLoadc s
  | .loadk => Sys2Proof.Machine.execLoadk s
  | .loadn => Sys2Proof.Machine.execLoadn s
  | .load => Sys2Proof.Machine.execLoad s
  | .qr a b c d => Sys2Proof.Machine.execQr a b c d s
  | .colround => Sys2Proof.Machine.execColround s
  | .rowround => Sys2Proof.Machine.execRowround s
  | .dround => Sys2Proof.Machine.execDround s
  | .permute => Sys2Proof.Machine.execPermute s
  | .extract => Sys2Proof.Machine.execExtract s
  | .run => Sys2Proof.Machine.execRun s

end Sys2Proof.Machine
end

