-- ==== Sys2Proof/Machine/Agents.lean ====
section
/-! DEFINITION. The moves of the agents: the engine step (60_exceptions.md R111), one access or one round
of WAIT by the host (30_encoding.md R61, R62), the reset event (70_reset_and_hazards.md R130), and the
choice between them (00_scope.md R7). -/

namespace Sys2Proof.Machine

/-- `engine_step()` (R111): the latched word is decoded (30_encoding.md R63) and its command executed; a
word that spells no command signals ILLEGAL. The read of a latch holding `⊥` (10_state.md R28) is UNWRITTEN
(00_scope.md R6; 92_eei_decisions.md D10; log 9). -/
def engineStep (s : State) : Result :=
  match s.cmdLatch with
  | none => .fault .unwritten
  | some v =>
    match decode v with
    | .error _ => .next (s.signalIllegal v)
    | .ok i => exec i s

/-- One round of WAIT (R62): STATUS is read; while BUSY = 1 the loop stays at the head. -/
def waitRound (s : State) (rest : List HostOp) : Result :=
  match memRead 0x04 4 s with
  | .error f => .fault f
  | .ok v => if v.getLsbD 0 then .next s else .next { s with host := rest }

/-- The host's move: its oldest access (R61), or nothing where none is left (log 6). -/
def hostStep (s : State) : Result :=
  match s.host with
  | [] => .next s
  | .read addr n :: rest => hostRead addr n { s with host := rest }
  | .write addr n v :: rest => hostWrite addr n v { s with host := rest }
  | .wait :: rest => waitRound s rest

/-- The engine's move: its step is enabled exactly while BUSY = 1 (R7, R19; log 6). -/
def engineTurn (s : State) : Result := if s.status.busy then engineStep s else .next s

/-- The move of the agent whose turn it is. -/
def takeTurn (t : Turn) (s : State) : Result :=
  match t with
  | .host => hostStep s
  | .engine => engineTurn s
  | .reset => .next s.resetEngine

/-- Who moves where the schedule names nobody: a busy engine, else the host. So every run is weakly fair
to the engine (70_reset_and_hazards.md R137; log 4). -/
def defaultTurn (s : State) : Turn := if s.status.busy then .engine else .host

/-- One step of the interleaving of 20_memory.md R42. -/
def moveNext (s : State) : Result :=
  match s.turns with
  | [] => takeTurn (defaultTurn s) s
  | t :: ts => takeTurn t { s with turns := ts }

/-- The command word issued and the engine next to move: the very next step runs it (log 7). -/
def latchForEngine (s : State) (v : Word32) : State :=
  { s.issue v with turns := .engine :: s.turns }

end Sys2Proof.Machine
end

