-- ==== Sys2Proof/Machine/Step.lean ====
section
/-! DEFINITION. One step of the machine, and how a command word comes to be the next one run. -/

namespace Sys2Proof.Machine

/-- One step: the agent whose turn it is moves (00_scope.md R7; 20_memory.md R42). -/
def step (s : State) : Host.Outcome State Fault Refusal := moveNext s

/-- The state in which the next step runs the command whose table word of `nbits` bits is `w`: the engine
fetches nothing (10_state.md R16), so the word is issued (60_exceptions.md R110) and the engine is next
to move (log 7). -/
def State.withFetchWord (s : State) (nbits w : Nat) : State :=
  latchForEngine s (BitVec.ofNat 32 (w % 2 ^ nbits))

end Sys2Proof.Machine
end

