-- ==== Sys2Proof/Machine/HostProgram.lean ====
section
/-! DEFINITION. The assembler level of 30_encoding.md R60 to R62: the text of a command and the host
accesses that the pseudo-instructions stand for. -/

namespace Sys2Proof.Machine

/-- The text of a command (R60): upper-case mnemonic, decimal indices separated by commas. -/
def asmText : Instr → String
  | .nop => "NOP"
  | .loadc => "LOADC"
  | .loadk => "LOADK"
  | .loadn => "LOADN"
  | .load => "LOAD"
  | .qr a b c d =>
    "QR " ++ toString a.val ++ ", " ++ toString b.val ++ ", " ++ toString c.val ++ ", " ++ toString d.val
  | .colround => "COLROUND"
  | .rowround => "ROWROUND"
  | .dround => "DROUND"
  | .permute => "PERMUTE"
  | .extract => "EXTRACT"
  | .run => "RUN"

/-- `ISSUE <cmd>` (R62). -/
def issueCmd (i : Instr) : List HostOp := [.write 0x00 4 (encode i)]

/-- `EXEC <cmd>` (R62): ISSUE, then WAIT. -/
def execCmd (i : Instr) : List HostOp := issueCmd i ++ [.wait]

/-- `SETLENS` (R62). -/
def setLens : List HostOp := [.write 0x10 4 32#32, .write 0x14 4 32#32, .write 0x18 4 16#32]

/-- The word writes that put bytes into a buffer, four at a time, byte 0 of each word in bits 7:0. -/
def setBytes (off : Nat) : List Byte → List HostOp
  | b0 :: b1 :: b2 :: b3 :: bs => .write off 4 (wordOfBytes b0 b1 b2 b3) :: setBytes (off + 4) bs
  | _ => []

/-- `SETKEY k0..k31` (R62). -/
def setKey (k : Vector Byte 32) : List HostOp := setBytes keyBase k.toList

/-- `SETNONCE n0..n15` (R62). -/
def setNonce (n : Vector Byte 16) : List HostOp := setBytes nonceBase n.toList

/-- `SETX i, imm` (R62). -/
def setX (i : WordIdx) (v : Word32) : List HostOp := [.write (xwinBase + 4 * i.val) 4 v]

/-- `GETX i -> name` (R62). -/
def getX (i : WordIdx) : List HostOp := [.read (xwinBase + 4 * i.val) 4]

end Sys2Proof.Machine
end

