-- ==== Sys2Proof/Machine/Platform.lean ====
section
/-! DEFINITION. A platform of N_ENGINES >= 1 engines, each with its own window at its own BASE and its own
state (00_scope.md R2; 20_memory.md R30; 60_exceptions.md R124; log 12). -/

namespace Sys2Proof.Machine

/-- An engine and the bus address of its window. -/
structure Mounted where
  base : Nat
  engine : State
  deriving DecidableEq, Repr

/-- The engines of a platform. -/
abbrev Platform := List Mounted

/-- A legal BASE: any multiple of 256 (00_scope.md R2). -/
def legalBase (base : Nat) : Bool := base % Config.windowSize == 0

/-- At least one engine, every BASE legal and no two windows the same (00_scope.md R2). -/
def Platform.wf (p : Platform) : Bool :=
  !p.isEmpty && p.all (fun m => legalBase m.base) && (p.map Mounted.base).Nodup

/-- The window offset of a bus address in an engine's window (20_memory.md R30). -/
def Mounted.offset (m : Mounted) (busAddr : Nat) : Option Nat :=
  if m.base ≤ busAddr ∧ busAddr < m.base + Config.windowSize then some (busAddr - m.base) else none

/-- The number of the engine whose window holds a bus address, and the offset in it. -/
def Platform.route : Platform → Nat → Option (Nat × Nat)
  | [], _ => none
  | m :: p, busAddr =>
    match m.offset busAddr with
    | some o => some (0, o)
    | none => (Platform.route p busAddr).map fun r => (r.1 + 1, r.2)

/-- A move on engine `k`. A fault at it ends the run of the whole platform, the other engines' too:
DESIGN CHOICE (log 18), 60_exceptions.md R112 says that "a faulted run stops" and R124 that engines share
nothing, and neither says which run that is. A move that names an engine the platform does not have
passes: DESIGN CHOICE (log 12). -/
def Platform.onEngine (p : Platform) (k : Nat) (f : State → Result) :
    Host.Outcome Platform Fault Refusal :=
  match p[k]? with
  | none => .next p
  | some m =>
    match f m.engine with
    | .next t => .next (p.set k { m with engine := t })
    | .fault e => .fault e
    | .refused r => .refused r

/-- A move on the platform: a bus access, an engine's step, an engine's reset, or an engine's own next
step of its schedule. -/
inductive PlatformMove where
  | busRead (busAddr n : Nat)
  | busWrite (busAddr n : Nat) (v : Word32)
  | engine (k : Nat)
  | reset (k : Nat)
  | scheduled (k : Nat)
  deriving DecidableEq, Repr

/-- One move. A bus address in no window lies in no mapped region: BAD_ACCESS (20_memory.md R34;
log 12). -/
def Platform.move (p : Platform) : PlatformMove → Host.Outcome Platform Fault Refusal
  | .busRead a n =>
    match p.route a with
    | none => .fault .badAccess
    | some r => p.onEngine r.1 (hostRead r.2 n)
  | .busWrite a n v =>
    match p.route a with
    | none => .fault .badAccess
    | some r => p.onEngine r.1 (hostWrite r.2 n v)
  | .engine k => p.onEngine k engineTurn
  | .reset k => p.onEngine k (takeTurn .reset)
  | .scheduled k => p.onEngine k moveNext

end Sys2Proof.Machine
end

