-- ==== Sys2Proof/Safety.lean ====
section
/-! DEFINITION. The terms claims use: what a command needs written (70_reset_and_hazards.md R133), what it
leaves alone, the invariant of every step, and what a rejected word does. -/

namespace Sys2Proof.Machine

/-! ### What a command needs (R133; 92_eei_decisions.md D36) -/

/-- All 32 key bytes hold values. -/
abbrev State.keyWritten (s : State) : Prop := ∀ j < 32, (s.mem.read (0x20 + j)).isSome = true

/-- All 16 nonce bytes hold values. -/
abbrev State.nonceWritten (s : State) : Prop := ∀ j < 16, (s.mem.read (0x40 + j)).isSome = true

/-- All 16 state words hold values. -/
abbrev State.allXWritten (s : State) : Prop := ∀ i : WordIdx, (s.readX i).isSome = true

/-- The eight words of the output map hold values (42_extract_run.md R96). -/
abbrev State.outXWritten (s : State) : Prop :=
  ∀ i ∈ ([0, 5, 10, 15, 6, 7, 8, 9] : List WordIdx), (s.readX i).isSome = true

/-- The four words of a QR hold values (41_permutation.md R81). -/
abbrev State.qrWritten (s : State) (a b c d : WordIdx) : Prop :=
  ∀ i ∈ [a, b, c, d], (s.readX i).isSome = true

/-- The lengths RUN accepts (42_extract_run.md R97). -/
abbrev State.lengthsOk (s : State) : Prop :=
  s.outLen = 32#32 ∧ s.keyLen = 32#32 ∧ s.nonceLen = 16#32

/-! ### What stays unchanged -/

/-- Every field but the state words, the buffers and STATUS is the same. -/
structure SameControl (s t : State) : Prop where
  cmdLatch : t.cmdLatch = s.cmdLatch
  einfo0 : t.einfo0 = s.einfo0
  einfo1 : t.einfo1 = s.einfo1
  outLen : t.outLen = s.outLen
  keyLen : t.keyLen = s.keyLen
  nonceLen : t.nonceLen = s.nonceLen
  replies : t.replies = s.replies
  host : t.host = s.host
  turns : t.turns = s.turns

/-- Every buffer byte reads as before. -/
abbrev SameBytes (s t : State) : Prop := ∀ a, t.mem.read a = s.mem.read a

/-- Every state word outside the list is as before. -/
abbrev SameWordsBut (ps : List WordIdx) (s t : State) : Prop :=
  ∀ i, i ∉ ps → t.readX i = s.readX i

/-- The command completed: BUSY and DONE are written and no other field of STATUS
(60_exceptions.md R111). -/
abbrev CompletedFrom (s t : State) : Prop :=
  t.status = { s.status with busy := false, done := true }

/-- The data of 60_exceptions.md R119: no state word, no buffer byte, no length register changed. -/
structure SameData (s t : State) : Prop where
  x : t.x = s.x
  mem : t.mem = s.mem
  outLen : t.outLen = s.outLen
  keyLen : t.keyLen = s.keyLen
  nonceLen : t.nonceLen = s.nonceLen

/-! ### Rejected words and sequences of commands -/

/-- The engine step of a latched word `v` signals ILLEGAL and changes nothing else
(60_exceptions.md R117). -/
def RejectedAtStep (v : Word32) : Prop :=
  ∀ s : State, s.cmdLatch = some v →
    engineStep s =
      .next { s with status := ⟨false, false, true, .illegal, .none⟩, einfo0 := v, einfo1 := 0#32 }

/-- The encoding of a format-N command: its word is its opcode (30_encoding.md R51, R54), and the word
with any of bits 31:8 set is illegal (R57). -/
def FormatNWord (opc : Nat) (i : Instr) : Prop :=
  decode (BitVec.ofNat 32 opc) = .ok i ∧
    ∀ v : Word32, v.toNat % 256 = opc → v.toNat / 256 ≠ 0 → RejectedAtStep v

/-- One command after another, a fault or a refusal ending the sequence. -/
def andThen (o : Result) (f : State → Result) : Result :=
  match o with
  | .next t => f t
  | .fault e => .fault e
  | .refused r => .refused r

/-- A command repeated. -/
def execTimes (i : Instr) : Nat → State → Result
  | 0, s => .next s
  | n + 1, s => andThen (exec i s) (execTimes i n)

/-! ### The tables of the encoding and of the window -/

/-- (mask, match) of the twelve rows of the opcode map (30_encoding.md R54). -/
def opcodeMap : List (Word32 × Word32) :=
  [(0xFFFFFFFF#32, 0x00000000#32), (0xFFFFFFFF#32, 0x00000001#32), (0xFFFFFFFF#32, 0x00000002#32),
   (0xFFFFFFFF#32, 0x00000003#32), (0xFFFFFFFF#32, 0x00000004#32), (0xFF0000FF#32, 0x00000008#32),
   (0xFFFFFFFF#32, 0x00000009#32), (0xFFFFFFFF#32, 0x0000000A#32), (0xFFFFFFFF#32, 0x0000000B#32),
   (0xFFFFFFFF#32, 0x0000000C#32), (0xFFFFFFFF#32, 0x00000010#32), (0xFFFFFFFF#32, 0x00000020#32)]

/-- The four index fields of a format-Q word are pairwise distinct (30_encoding.md R52, R58). -/
abbrev DistinctIndexFields (v : Word32) : Prop :=
  [v.toNat / 256 % 16, v.toNat / 4096 % 16, v.toNat / 65536 % 16, v.toNat / 1048576 % 16].Nodup

/-- (first offset, size, widths) of the regions that reads may reach (20_memory.md R33, R35). -/
def readableRows : List (Nat × Nat × List Nat) :=
  [(0x04, 28, [4]), (0x20, 32, [1, 2, 4]), (0x40, 16, [1, 2, 4]), (0x60, 32, [1, 2, 4]), (0x80, 64, [4])]

/-- The same for writes: CMD and the length registers of CTRL (20_memory.md R33, R35). -/
def writableRows : List (Nat × Nat × List Nat) :=
  [(0x00, 4, [4]), (0x10, 12, [4]), (0x20, 32, [1, 2, 4]), (0x40, 16, [1, 2, 4]), (0x60, 32, [1, 2, 4]),
   (0x80, 64, [4])]

/-- An access lies inside one row, naturally aligned, at one of the row's widths (20_memory.md R34). -/
def LegalIn (rows : List (Nat × Nat × List Nat)) (addr n : Nat) : Prop :=
  ∃ r ∈ rows, n ∈ r.2.2 ∧ addr % n = 0 ∧ r.1 ≤ addr ∧ addr + n ≤ r.1 + r.2.1

/-! ### The invariant of every step -/

/-- An offset of one of the three buffers (20_memory.md R33). -/
def bufferOffset (a : Nat) : Bool := (0x20 ≤ a && a < 0x50) || (0x60 ≤ a && a < 0x80)

/-- Only buffer offsets are listed. -/
def Memory.inBuffers (m : Memory) : Bool := m.all fun c => bufferOffset c.1

/-- The legal combinations of (BUSY, DONE, ERR) (10_state.md R18): at most one of the three. -/
def Status.legal (st : Status) : Bool :=
  !(st.busy && st.done) && !(st.busy && st.err) && !(st.done && st.err)

/-- A word that spells no command (30_encoding.md R55). -/
def spellsNothing (v : Word32) : Bool :=
  match decode v with
  | .ok _ => false
  | .error _ => true

/-- The report agrees with its code: ERRCODE is 0 exactly while ERR = 0, ERRPARAM names a buffer exactly
for LENGTH, EINFO0 and EINFO1 hold what that code records (10_state.md R18, R21 to R23;
60_exceptions.md R113, R114, R116, R117). -/
def State.reportAgrees (s : State) : Bool :=
  match s.status.errCode, s.status.errParam with
  | .none, .none => !s.status.err && s.einfo0 == 0#32 && s.einfo1 == 0#32
  | .length, .output => s.status.err && s.einfo0 != 32#32 && s.einfo1 == 32#32
  | .length, .key => s.status.err && s.einfo0 != 32#32 && s.einfo1 == 32#32
  | .length, .nonce => s.status.err && s.einfo0 != 16#32 && s.einfo1 == 16#32
  | .illegal, .none => s.status.err && spellsNothing s.einfo0 && s.einfo1 == 0#32
  | _, _ => false

/-- The invariant. -/
structure Inv (s : State) : Prop where
  /-- The buffers' canonical form (log 2). -/
  memCanonical : s.mem.wf = true
  /-- Only buffer bytes are stored (20_memory.md R33). -/
  memInBuffers : s.mem.inBuffers = true
  /-- No illegal STATUS is ever read (10_state.md R18). -/
  statusLegal : s.status.legal = true
  /-- A busy engine has a latched word (60_exceptions.md R110). -/
  busyLatched : s.status.busy = true → s.cmdLatch.isSome = true
  /-- The error report (60_exceptions.md R113 to R117). -/
  report : s.reportAgrees = true

end Sys2Proof.Machine
end

