-- ==== Sys2Proof/Certificates/Slice0/Obligations.lean ====
section
/-! DEFINITION. The statements about the engine, one per obligation of OBLIGATIONS.json. Helper terms
(`FormatNWord`, `RejectedAtStep`, `SameControl`, `Inv`, ...) stand in Safety.lean. -/

open Sys2Proof Sys2Proof.Machine

/-! ### Reset (10_state.md R28; 70_reset_and_hazards.md R130, R131) -/

/-- R28: every item of the engine's state at its reset value, and the word the host reads of STATUS and
PARAMS. -/
def Obligations.ResetLeavesTheRuleValues : Prop :=
  (∀ i, State.reset.readX i = none) ∧
  (∀ a, State.reset.mem.read a = none) ∧
  State.reset.cmdLatch = none ∧
  State.reset.status = ⟨false, false, false, .none, .none⟩ ∧
  memRead 0x04 4 State.reset = .ok 0x00000000#32 ∧
  State.reset.einfo0 = 0#32 ∧ State.reset.einfo1 = 0#32 ∧
  State.reset.outLen = 0#32 ∧ State.reset.keyLen = 0#32 ∧ State.reset.nonceLen = 0#32 ∧
  memRead 0x1C 4 State.reset = .ok 0x00102020#32

/-- R130, R131: a reset, busy or idle, leaves every item of the engine's state at its reset value; a
latched command is discarded. That the outside's own fields go on is the model's choice (log 11). -/
def Obligations.ResetEventDiscardsEverything : Prop :=
  ∀ (s : State) (ts : List Turn), s.turns = .reset :: ts →
    ∃ t, step s = .next t ∧
      (∀ i, t.readX i = none) ∧ (∀ a, t.mem.read a = none) ∧ t.cmdLatch = none ∧
      t.status = ⟨false, false, false, .none, .none⟩ ∧
      t.einfo0 = 0#32 ∧ t.einfo1 = 0#32 ∧
      t.outLen = 0#32 ∧ t.keyLen = 0#32 ∧ t.nonceLen = 0#32 ∧
      t.replies = s.replies ∧ t.host = s.host ∧ t.turns = ts

/-! ### The invariant -/

/-- The invariant holds right after reset. -/
def Obligations.ResetMeetsTheInvariant : Prop := Inv State.reset

/-- Every step keeps the invariant: the buffers' canonical form, no byte outside a buffer, a legal
(BUSY, DONE, ERR), a latched word while busy, and an error report that agrees with its code. -/
def Obligations.EveryStepKeepsTheInvariant : Prop :=
  ∀ s t : State, Inv s → step s = .next t → Inv t

/-- Memories in canonical form that read alike are equal data (log 2). -/
def Obligations.CanonicalMemoriesReadingAlikeAreEqual : Prop :=
  ∀ m n : Memory, m.wf = true → n.wf = true → (∀ a, m.read a = n.read a) → m = n

/-! ### Encoding (30_encoding.md) -/

/-- Decoding the word of a well-formed command gives the command back, for every operand. -/
def Obligations.DecodingAnEncodedCommandGivesItBack : Prop :=
  ∀ i : Instr, i.wellFormed = true → decode (encode i) = .ok i

/-- A word that decodes is the word of the command it decodes to: each command has one word. -/
def Obligations.ADecodedWordIsItsCommandsEncoding : Prop :=
  ∀ (v : Word32) (i : Instr), decode v = .ok i → i.wellFormed = true ∧ encode i = v

/-- R54, R55: at most one row of the map matches a word; a word that decodes matches its command's row;
a word is illegal exactly where no row matches or it is a QR with indices not pairwise distinct. -/
def Obligations.DecodingFollowsTheOpcodeMap : Prop :=
  ∀ v : Word32,
    (opcodeMap.filter fun r => v &&& r.1 = r.2).length ≤ 1 ∧
    (∀ i, decode v = .ok i → v &&& i.mask = i.matchWord) ∧
    ((∃ e, decode v = .error e) ↔
      (∀ r ∈ opcodeMap, v &&& r.1 ≠ r.2) ∨
      (v &&& 0xFF0000FF#32 = 0x00000008#32 ∧
        ¬ DistinctIndexFields v))

/-- R56, R57, R58, R117: a reserved opcode, a non-zero reserved bit or repeated QR indices make the
engine step signal ILLEGAL, record the word, read 0x00000024 in STATUS, and change nothing else. -/
def Obligations.ReservedOpcodesBitsAndRepeatedIndicesAreIllegal : Prop :=
  ∀ v : Word32,
    ((v.toNat % 256 ∉ [0x00, 0x01, 0x02, 0x03, 0x04, 0x08, 0x09, 0x0A, 0x0B, 0x0C, 0x10, 0x20]) ∨
     (v.toNat % 256 ∈ [0x00, 0x01, 0x02, 0x03, 0x04, 0x09, 0x0A, 0x0B, 0x0C, 0x10, 0x20] ∧
        v.toNat / 256 ≠ 0) ∨
     (v.toNat % 256 = 0x08 ∧ v.toNat / 16777216 ≠ 0) ∨
     (v.toNat % 256 = 0x08 ∧
        ¬ DistinctIndexFields v)) →
    RejectedAtStep v ∧
    ∀ s t : State, s.cmdLatch = some v → engineStep s = .next t → t.status.word = 0x00000024#32

/-- The words of R60's examples, of the opcode map and of the test vectors decode to their commands; the
illegal words of the vectors do not decode. -/
def Obligations.SpecWordsDecodeToTheirCommands : Prop :=
  decode 0x00000000#32 = .ok .nop ∧ decode 0x00000001#32 = .ok .loadc ∧
  decode 0x00000004#32 = .ok .load ∧ decode 0x0000000C#32 = .ok .permute ∧
  decode 0x00000010#32 = .ok .extract ∧ decode 0x00000020#32 = .ok .run ∧
  decode 0x00C84008#32 = .ok (.qr 0 4 8 12) ∧ decode 0x00EDCF08#32 = .ok (.qr 15 12 13 14) ∧
  decode 0x001D9508#32 = .ok (.qr 5 9 13 1) ∧ decode 0x00012308#32 = .ok (.qr 3 2 1 0) ∧
  decode 0x00000005#32 = .error .reservedOpcode ∧ decode 0x00002001#32 = .error .reservedBits ∧
  decode 0x01C84008#32 = .error .reservedBits ∧ decode 0x00084008#32 = .error .repeatedIndices

/-! ### Step (60_exceptions.md R110, R111) -/

/-- A step of a busy engine whose turn it is (named by the schedule, or by an empty schedule, log 4) is
`exec` of the command its latched word decodes to. -/
def Obligations.AStepRunsTheDecodedCommand : Prop :=
  ∀ (s : State) (v : Word32) (i : Instr),
    s.cmdLatch = some v → decode v = .ok i → s.status.busy = true →
    (s.turns = [] → step s = exec i s) ∧
    (∀ ts, s.turns = .engine :: ts → step s = exec i { s with turns := ts })

/-- The step after `withFetchWord` runs exactly the command of the word given to it, from the state its
issue leaves (log 7). -/
def Obligations.AFetchedWordRunsNext : Prop :=
  ∀ (s : State) (i : Instr), i.wellFormed = true →
    step (s.withFetchWord 32 (encode i).toNat) = exec i (s.issue (encode i))

/-- A host turn makes the host's oldest access (30_encoding.md R61): a read answers its value, a write its
effect, a fault ends the run; WAIT reads STATUS and goes on once BUSY = 0 (R62). With no access left the
turn passes, the model's choice (log 6). -/
def Obligations.AHostTurnMakesTheOldestAccess : Prop :=
  ∀ (s : State) (ts : List Turn), s.turns = .host :: ts →
    (∀ addr n rest v, s.host = .read addr n :: rest → memRead addr n s = .ok v →
      step s = .next { s with turns := ts, host := rest, replies := v :: s.replies }) ∧
    (∀ addr n rest e, s.host = .read addr n :: rest → memRead addr n s = .error e → step s = .fault e) ∧
    (∀ addr n v rest t, s.host = .write addr n v :: rest → memWrite addr n v s = .ok t →
      step s = .next { t with turns := ts, host := rest }) ∧
    (∀ addr n v rest e, s.host = .write addr n v :: rest → memWrite addr n v s = .error e →
      step s = .fault e) ∧
    (∀ rest, s.host = .wait :: rest → step s =
      .next { s with turns := ts, host := if s.status.busy then s.host else rest }) ∧
    (s.host = [] → step s = .next { s with turns := ts })

/-- R110: an idle engine latches any word written to CMD, sets BUSY and clears the report; nothing else
changes. A busy engine's CMD write faults. -/
def Obligations.IssueLatchesTheWordAndClearsTheReport : Prop :=
  ∀ (s : State) (v : Word32),
    (s.status.busy = false →
      memWrite 0x00 4 v s =
        .ok { s with cmdLatch := some v, status := ⟨true, false, false, .none, .none⟩,
                     einfo0 := 0#32, einfo1 := 0#32 }) ∧
    (s.status.busy = true → memWrite 0x00 4 v s = .error .busyAccess)

/-- From an issue, an engine step that takes a next state leaves the engine idle, and STATUS reads one of
the five words of 42_extract_run.md R101 and 60_exceptions.md R116, R117. -/
def Obligations.AnIssuedCommandEndsIdleWithAReport : Prop :=
  ∀ (s t : State) (v : Word32), engineStep (s.issue v) = .next t →
    t.status.busy = false ∧
    t.status.word ∈ [0x00000002#32, 0x00000024#32, 0x00000114#32, 0x00000214#32, 0x00000314#32]

/-- No step is refused, and an engine step stops for one reason only: a cell holding `⊥` was read. -/
def Obligations.NoStepIsRefusedAndEnginesFaultOnlyUnwritten : Prop :=
  (∀ s r, step s ≠ .refused r) ∧ (∀ s e, engineStep s = .fault e → e = .unwritten)

/-! ### The commands -/

/-- R101: NOP changes nothing but BUSY and DONE, so issuing it clears an error report. -/
def Obligations.NopOnlyCompletes : Prop :=
  FormatNWord 0x00 .nop ∧
  (∀ s : State, exec .nop s = .next { s with status := { s.status with busy := false, done := true } }) ∧
  ∀ s : State, ∃ t, engineStep (s.issue 0x00000000#32) = .next t ∧ SameData s t ∧
    t.status.word = 0x00000002#32 ∧ t.einfo0 = 0#32 ∧ t.einfo1 = 0#32

/-- R70: LOADC places the four constants and completes in every state. -/
def Obligations.LoadcPlacesTheConstants : Prop :=
  FormatNWord 0x01 .loadc ∧
  ∀ s : State, ∃ t, exec .loadc s = .next t ∧
    t.readX 0 = some 0x61707865#32 ∧ t.readX 5 = some 0x3320646e#32 ∧
    t.readX 10 = some 0x79622d32#32 ∧ t.readX 15 = some 0x6b206574#32 ∧
    SameWordsBut [0, 5, 10, 15] s t ∧ SameBytes s t ∧ CompletedFrom s t ∧ SameControl s t

/-- R71: LOADK places the eight key words, read little-endian at byte offsets 0, 4, .., 28; it faults
where a key byte holds `⊥`. -/
def Obligations.LoadkPlacesTheKeyWords : Prop :=
  FormatNWord 0x02 .loadk ∧
  (∀ s : State, s.keyWritten → ∃ t, exec .loadk s = .next t ∧
    (∀ p ∈ ([(0, 1), (4, 2), (8, 3), (12, 4), (16, 11), (20, 12), (24, 13), (28, 14)] :
        List (Nat × WordIdx)), ∀ b0 b1 b2 b3 : Byte,
      s.mem.read (0x20 + p.1) = some b0 → s.mem.read (0x20 + p.1 + 1) = some b1 →
      s.mem.read (0x20 + p.1 + 2) = some b2 → s.mem.read (0x20 + p.1 + 3) = some b3 →
      t.readX p.2 = some (wordOfBytes b0 b1 b2 b3)) ∧
    SameWordsBut [1, 2, 3, 4, 11, 12, 13, 14] s t ∧ SameBytes s t ∧ CompletedFrom s t ∧
    SameControl s t) ∧
  (∀ s : State, ¬ s.keyWritten → exec .loadk s = .fault .unwritten)

/-- R72: LOADN places the four nonce words; it faults where a nonce byte holds `⊥`. -/
def Obligations.LoadnPlacesTheNonceWords : Prop :=
  FormatNWord 0x03 .loadn ∧
  (∀ s : State, s.nonceWritten → ∃ t, exec .loadn s = .next t ∧
    (∀ p ∈ ([(0, 6), (4, 7), (8, 8), (12, 9)] : List (Nat × WordIdx)), ∀ b0 b1 b2 b3 : Byte,
      s.mem.read (0x40 + p.1) = some b0 → s.mem.read (0x40 + p.1 + 1) = some b1 →
      s.mem.read (0x40 + p.1 + 2) = some b2 → s.mem.read (0x40 + p.1 + 3) = some b3 →
      t.readX p.2 = some (wordOfBytes b0 b1 b2 b3)) ∧
    SameWordsBut [6, 7, 8, 9] s t ∧ SameBytes s t ∧ CompletedFrom s t ∧ SameControl s t) ∧
  (∀ s : State, ¬ s.nonceWritten → exec .loadn s = .fault .unwritten)

/-- R73: LOAD fills all sixteen words, by R69's placement; it has the effect of LOADC, LOADK, LOADN in
turn; it faults where a key or nonce byte holds `⊥`. -/
def Obligations.LoadFillsTheWholeState : Prop :=
  FormatNWord 0x04 .load ∧
  (∀ s : State, s.keyWritten → s.nonceWritten → ∃ t, exec .load s = .next t ∧
    t.readX 0 = some 0x61707865#32 ∧ t.readX 5 = some 0x3320646e#32 ∧
    t.readX 10 = some 0x79622d32#32 ∧ t.readX 15 = some 0x6b206574#32 ∧
    (∀ p ∈ ([(0x20, 1), (0x24, 2), (0x28, 3), (0x2C, 4), (0x30, 11), (0x34, 12), (0x38, 13),
        (0x3C, 14), (0x40, 6), (0x44, 7), (0x48, 8), (0x4C, 9)] : List (Nat × WordIdx)),
      ∀ b0 b1 b2 b3 : Byte,
      s.mem.read p.1 = some b0 → s.mem.read (p.1 + 1) = some b1 →
      s.mem.read (p.1 + 2) = some b2 → s.mem.read (p.1 + 3) = some b3 →
      t.readX p.2 = some (wordOfBytes b0 b1 b2 b3)) ∧
    SameBytes s t ∧ CompletedFrom s t ∧ SameControl s t) ∧
  (∀ s : State, s.keyWritten → s.nonceWritten →
    exec .load s = andThen (andThen (exec .loadc s) (exec .loadk)) (exec .loadn)) ∧
  (∀ s : State, ¬ (s.keyWritten ∧ s.nonceWritten) → exec .load s = .fault .unwritten)

/-- 00_scope.md R4: the sum wraps modulo 2^32, exclusive or is bitwise, and `rotl32` is the circular rotation. -/
def Obligations.WordOperationsWrapAndRotate : Prop :=
  (∀ a b : Word32, (a + b).toNat = (a.toNat + b.toNat) % 2 ^ 32) ∧
  (∀ (a b : Word32) (i : Nat), (a ^^^ b).getLsbD i = (a.getLsbD i != b.getLsbD i)) ∧
  (∀ (v : Word32) (n : Nat), 0 < n → n < 32 →
    (rotl32 v n).toNat = (v.toNat * 2 ^ n + v.toNat / 2 ^ (32 - n)) % 2 ^ 32 ∧
    ∀ i < 32, (rotl32 v n).getLsbD ((i + n) % 32) = v.getLsbD i)

/-- R80: the quarter-round in the library's rotation, all four words updated in the order b, c, d, a. -/
def Obligations.QuarterRoundUpdatesAllFourWords : Prop :=
  ∀ a b c d : Word32, ∃ b' c' d' a' : Word32,
    b' = b ^^^ (a + d).rotateLeft 7 ∧ c' = c ^^^ (b' + a).rotateLeft 9 ∧
    d' = d ^^^ (c' + b').rotateLeft 13 ∧ a' = a ^^^ (d' + c').rotateLeft 18 ∧
    quarterRound a b c d = (a', b', c', d')

/-- R81: QR on four distinct indices: its word, its effect where the four words hold values, its fault
where one holds `⊥`, and its ILLEGAL words. -/
def Obligations.QrMixesItsFourWords : Prop :=
  (∀ a b c d : WordIdx, [a, b, c, d].Nodup →
    decode (BitVec.ofNat 32 (0x08 + a.val * 2 ^ 8 + b.val * 2 ^ 12 + c.val * 2 ^ 16 + d.val * 2 ^ 20)) =
      .ok (.qr a b c d)) ∧
  (∀ v : Word32, v.toNat % 256 = 0x08 →
    (v.toNat / 16777216 ≠ 0 ∨
      ¬ DistinctIndexFields v) → RejectedAtStep v) ∧
  (∀ (a b c d : WordIdx) (s : State) (wa wb wc wd : Word32), [a, b, c, d].Nodup →
    s.readX a = some wa → s.readX b = some wb → s.readX c = some wc → s.readX d = some wd →
    ∃ t, exec (.qr a b c d) s = .next t ∧
      t.readX a = some (quarterRound wa wb wc wd).1 ∧
      t.readX b = some (quarterRound wa wb wc wd).2.1 ∧
      t.readX c = some (quarterRound wa wb wc wd).2.2.1 ∧
      t.readX d = some (quarterRound wa wb wc wd).2.2.2 ∧
      SameWordsBut [a, b, c, d] s t ∧ SameBytes s t ∧ CompletedFrom s t ∧ SameControl s t) ∧
  (∀ (a b c d : WordIdx) (s : State), [a, b, c, d].Nodup → ¬ s.qrWritten a b c d →
    exec (.qr a b c d) s = .fault .unwritten) ∧
  (∃ s t u : State, exec (.qr 0 1 2 3) s = .next t ∧ exec (.qr 3 2 1 0) s = .next u ∧ t.x ≠ u.x)

/-- A QR term with repeated indices, which no word decodes to, signals ILLEGAL with its own word: the
model's reading of 30_encoding.md R58 for such a term (log 8). -/
def Obligations.ARepeatedIndexQrTermSignalsIllegal : Prop :=
  ∀ (a b c d : WordIdx) (s : State), ¬ [a, b, c, d].Nodup →
    exec (.qr a b c d) s =
      .next { s with status := ⟨false, false, true, .illegal, .none⟩, einfo0 := encode (.qr a b c d),
                     einfo1 := 0#32 }

/-- R83: COLROUND is one quarter-round on each of the four columns; it faults where a word holds `⊥`. -/
def Obligations.ColroundMixesEachColumn : Prop :=
  FormatNWord 0x09 .colround ∧
  (∀ s : State, s.allXWritten → ∃ t, exec .colround s = .next t ∧
    (∀ g ∈ ([(0, 4, 8, 12), (5, 9, 13, 1), (10, 14, 2, 6), (15, 3, 7, 11)] :
        List (WordIdx × WordIdx × WordIdx × WordIdx)), ∀ wa wb wc wd : Word32,
      s.readX g.1 = some wa → s.readX g.2.1 = some wb → s.readX g.2.2.1 = some wc →
      s.readX g.2.2.2 = some wd →
      t.readX g.1 = some (quarterRound wa wb wc wd).1 ∧
      t.readX g.2.1 = some (quarterRound wa wb wc wd).2.1 ∧
      t.readX g.2.2.1 = some (quarterRound wa wb wc wd).2.2.1 ∧
      t.readX g.2.2.2 = some (quarterRound wa wb wc wd).2.2.2) ∧
    SameBytes s t ∧ CompletedFrom s t ∧ SameControl s t) ∧
  (∀ s : State, ¬ s.allXWritten → exec .colround s = .fault .unwritten)

/-- R84: ROWROUND is one quarter-round on each of the four rows; it faults where a word holds `⊥`. -/
def Obligations.RowroundMixesEachRow : Prop :=
  FormatNWord 0x0A .rowround ∧
  (∀ s : State, s.allXWritten → ∃ t, exec .rowround s = .next t ∧
    (∀ g ∈ ([(0, 1, 2, 3), (5, 6, 7, 4), (10, 11, 8, 9), (15, 12, 13, 14)] :
        List (WordIdx × WordIdx × WordIdx × WordIdx)), ∀ wa wb wc wd : Word32,
      s.readX g.1 = some wa → s.readX g.2.1 = some wb → s.readX g.2.2.1 = some wc →
      s.readX g.2.2.2 = some wd →
      t.readX g.1 = some (quarterRound wa wb wc wd).1 ∧
      t.readX g.2.1 = some (quarterRound wa wb wc wd).2.1 ∧
      t.readX g.2.2.1 = some (quarterRound wa wb wc wd).2.2.1 ∧
      t.readX g.2.2.2 = some (quarterRound wa wb wc wd).2.2.2) ∧
    SameBytes s t ∧ CompletedFrom s t ∧ SameControl s t) ∧
  (∀ s : State, ¬ s.allXWritten → exec .rowround s = .fault .unwritten)

/-- 41_permutation.md R82, R83, R84 (and program P2 of 95_test_vectors.md): a phase command is its four
QR commands in the listed order, in every state, the fault of a cell holding `⊥` included. -/
def Obligations.APhaseIsItsFourQrCommands : Prop :=
  ∀ s : State,
    exec .colround s = andThen (andThen (andThen (exec (.qr 0 4 8 12) s) (exec (.qr 5 9 13 1)))
      (exec (.qr 10 14 2 6))) (exec (.qr 15 3 7 11)) ∧
    exec .rowround s = andThen (andThen (andThen (exec (.qr 0 1 2 3) s) (exec (.qr 5 6 7 4)))
      (exec (.qr 10 11 8 9))) (exec (.qr 15 12 13 14))

/-- The four quarter-rounds of a phase commute: any order of the groups gives the same words. An inference
that 41_permutation.md R82 marks as the spec's own. -/
def Obligations.TheQuarterRoundsOfAPhaseCommute : Prop :=
  (∀ (gs : List Group) (w : Words), gs.Perm colGroups → gs.foldl applyGroup w = colPhase w) ∧
  (∀ (gs : List Group) (w : Words), gs.Perm rowGroups → gs.foldl applyGroup w = rowPhase w)

/-- DROUND is COLROUND, then ROWROUND, in every state (41_permutation.md R85, an inference it marks as the
spec's own); it completes where every word holds a value and faults otherwise; the reverse order
differs. -/
def Obligations.DroundIsColroundThenRowround : Prop :=
  FormatNWord 0x0B .dround ∧
  (∀ s : State, exec .dround s = andThen (exec .colround s) (exec .rowround)) ∧
  (∀ s : State, s.allXWritten → ∃ t, exec .dround s = .next t ∧
    SameBytes s t ∧ CompletedFrom s t ∧ SameControl s t) ∧
  (∀ s : State, ¬ s.allXWritten → exec .dround s = .fault .unwritten) ∧
  (∃ s t u : State, exec .dround s = .next t ∧
    andThen (exec .rowround s) (exec .colround) = .next u ∧ t.x ≠ u.x)

/-- PERMUTE is ten DROUNDs, in every state (41_permutation.md R86, an inference it marks as the spec's
own); it completes where every word holds a value and faults
otherwise; the all-zero state is a fixed point. -/
def Obligations.PermuteIsTenDrounds : Prop :=
  FormatNWord 0x0C .permute ∧
  (∀ s : State, exec .permute s = execTimes .dround 10 s) ∧
  (∀ s : State, s.allXWritten → ∃ t, exec .permute s = .next t ∧
    SameBytes s t ∧ CompletedFrom s t ∧ SameControl s t) ∧
  (∀ s : State, ¬ s.allXWritten → exec .permute s = .fault .unwritten) ∧
  (∀ s : State, (∀ i, s.readX i = some 0#32) → ∃ t, exec .permute s = .next t ∧ t.x = s.x)

/-- 41_permutation.md R80, R83 to R86: each round command is injective on the state words, so no two
fully written states have the same image. -/
def Obligations.RoundCommandsLoseNoInformation : Prop :=
  ∀ i ∈ [Instr.colround, .rowround, .dround, .permute], ∀ s s' t t' : State,
    exec i s = .next t → exec i s' = .next t' → t.x = t'.x → s.x = s'.x

/-- 41_permutation.md R87: each round command needs all sixteen words and faults on one `⊥`; QR needs
only its own four. -/
def Obligations.RoundCommandsNeedEveryWordQrOnlyItsFour : Prop :=
  (∀ (s : State) (j : WordIdx), s.readX j = none →
    ∀ i ∈ [Instr.colround, .rowround, .dround, .permute], exec i s = .fault .unwritten) ∧
  (∀ (s : State) (a b c d : WordIdx), [a, b, c, d].Nodup →
    ((∃ t, exec (.qr a b c d) s = .next t) ↔ s.qrWritten a b c d))

/-- R96 (with the map of R95): EXTRACT writes the eight words of the output map little-endian to OUTBUF
and nothing else; it faults where one of the eight holds `⊥`. -/
def Obligations.ExtractWritesTheOutputBuffer : Prop :=
  FormatNWord 0x10 .extract ∧
  (∀ s : State, s.outXWritten → ∃ t, exec .extract s = .next t ∧
    (∀ p ∈ ([(0, 0), (4, 5), (8, 10), (12, 15), (16, 6), (20, 7), (24, 8), (28, 9)] :
        List (Nat × WordIdx)), ∀ w : Word32, s.readX p.2 = some w →
      ∀ j < 4, t.mem.read (0x60 + p.1 + j) = some (w.extractLsb' (8 * j) 8)) ∧
    (∀ a, a < 0x60 ∨ 0x80 ≤ a → t.mem.read a = s.mem.read a) ∧
    t.x = s.x ∧ CompletedFrom s t ∧ SameControl s t) ∧
  (∀ s : State, ¬ s.outXWritten → exec .extract s = .fault .unwritten)

/-- R97: the length check reports the first wrong length of output, key, nonce, and reads the three
length registers only. -/
def Obligations.ValidateReportsTheFirstWrongLength : Prop :=
  ∀ s : State,
    (s.outLen ≠ 32#32 → validate s = some ⟨.output, s.outLen, 32#32⟩) ∧
    (s.outLen = 32#32 → s.keyLen ≠ 32#32 → validate s = some ⟨.key, s.keyLen, 32#32⟩) ∧
    (s.outLen = 32#32 → s.keyLen = 32#32 → s.nonceLen ≠ 16#32 →
      validate s = some ⟨.nonce, s.nonceLen, 16#32⟩) ∧
    (s.lengthsOk → validate s = none)

/-- R116: RUN with a wrong length records the first one, its value and the required length, reads
0x00000114, 0x00000214 or 0x00000314 in STATUS, and changes nothing else; every other command does
the same whatever the length registers hold. -/
def Obligations.RunReportsTheFirstWrongLength : Prop :=
  (∀ s : State, s.outLen ≠ 32#32 → ∃ st, st.word = 0x00000114#32 ∧
    exec .run s = .next { s with status := st, einfo0 := s.outLen, einfo1 := 32#32 }) ∧
  (∀ s : State, s.outLen = 32#32 → s.keyLen ≠ 32#32 → ∃ st, st.word = 0x00000214#32 ∧
    exec .run s = .next { s with status := st, einfo0 := s.keyLen, einfo1 := 32#32 }) ∧
  (∀ s : State, s.outLen = 32#32 → s.keyLen = 32#32 → s.nonceLen ≠ 16#32 →
    ∃ st, st.word = 0x00000314#32 ∧
    exec .run s = .next { s with status := st, einfo0 := s.nonceLen, einfo1 := 16#32 }) ∧
  (∀ (i : Instr) (s : State) (o k n : Word32), i ≠ .run →
    exec i { s with outLen := o, keyLen := k, nonceLen := n } =
      andThen (exec i s) fun t => .next { t with outLen := o, keyLen := k, nonceLen := n })

/-- R98: RUN with the right lengths is LOAD, PERMUTE, EXTRACT in turn; it completes where every key and
nonce byte holds a value and faults otherwise; X ends permuted and OUTBUF ends with R95's words of it; a
length `Validate` rejects is signalled and nothing else is written. -/
def Obligations.RunIsLoadPermuteExtract : Prop :=
  FormatNWord 0x20 .run ∧
  (∀ s : State, s.lengthsOk →
    exec .run s = andThen (andThen (exec .load s) (exec .permute)) (exec .extract)) ∧
  (∀ s : State, s.lengthsOk → s.keyWritten → s.nonceWritten →
    ∃ t, exec .run s = .next t ∧ t.allXWritten ∧
      (∀ p ∈ ([(0, 0), (4, 5), (8, 10), (12, 15), (16, 6), (20, 7), (24, 8), (28, 9)] :
          List (Nat × WordIdx)), ∀ w : Word32, t.readX p.2 = some w →
        ∀ j < 4, t.mem.read (0x60 + p.1 + j) = some (w.extractLsb' (8 * j) 8)) ∧
      (∀ a, a < 0x60 ∨ 0x80 ≤ a → t.mem.read a = s.mem.read a) ∧
      CompletedFrom s t ∧ SameControl s t) ∧
  (∀ s : State, s.lengthsOk → ¬ (s.keyWritten ∧ s.nonceWritten) → exec .run s = .fault .unwritten) ∧
  (∀ (s : State) (e : LengthError), validate s = some e →
    exec .run s = .next { s with status := ⟨false, false, true, .length, e.param⟩, einfo0 := e.actual,
                                 einfo1 := e.required })

/-- 42_extract_run.md R100, which marks itself as derived: two runs with right lengths and the same key and nonce bytes write the same OUTBUF and leave
the same X, whatever X, OUTBUF, STATUS and the rest were. -/
def Obligations.RunDependsOnKeyAndNonceAlone : Prop :=
  ∀ s s' : State, s.lengthsOk → s'.lengthsOk → s.keyWritten → s.nonceWritten →
    (∀ a, 0x20 ≤ a → a < 0x50 → s.mem.read a = s'.mem.read a) →
    ∃ t t', exec .run s = .next t ∧ exec .run s' = .next t' ∧ t.x = t'.x ∧
      ∀ a, 0x60 ≤ a → a < 0x80 → t.mem.read a = t'.mem.read a

/-! ### Whole-machine rules of the engine -/

/-- 60_exceptions.md R119, which marks itself as derived: a command that ends in an error has changed no state word, no buffer byte and no length
register: its only changes are those of `signal Error` (R115). A fault has no state after it. -/
def Obligations.AnErroredCommandChangesNoData : Prop :=
  ∀ s t : State, s.status.err = false → engineStep s = .next t → t.status.err = true →
    t = { s with status := t.status, einfo0 := t.einfo0, einfo1 := t.einfo1 } ∧
    t.status.busy = false ∧ t.status.done = false

/-- 10_state.md R13 to R15, R24, R26, 60_exceptions.md R111, R115: an engine step writes no byte outside
OUTBUF, and no length register, CMDLATCH, or field of the outside. That CMDLATCH keeps its word is the
model's reading (log 10). -/
def Obligations.TheEngineWritesOnlyWordsOutbufAndReport : Prop :=
  ∀ s t : State, engineStep s = .next t →
    (∀ a, a < 0x60 ∨ 0x80 ≤ a → t.mem.read a = s.mem.read a) ∧
    t.outLen = s.outLen ∧ t.keyLen = s.keyLen ∧ t.nonceLen = s.nonceLen ∧
    t.cmdLatch = s.cmdLatch ∧ t.replies = s.replies ∧ t.host = s.host ∧ t.turns = s.turns

/-- 10_state.md R21, 60_exceptions.md R121: the report of an idle engine stays until the host writes CMD
or a reset comes. -/
def Obligations.TheReportStaysUntilTheNextIssueOrReset : Prop :=
  ∀ s t : State, s.status.busy = false → s.turns.head? ≠ some .reset →
    (∀ n v, s.host.head? ≠ some (.write 0x00 n v)) → step s = .next t →
    t.status = s.status ∧ t.einfo0 = s.einfo0 ∧ t.einfo1 = s.einfo1

/-- R38 and 00_scope.md R6: no step but a reset makes a buffer byte or a state word `⊥` again. -/
def Obligations.OnlyResetUnwritesACell : Prop :=
  ∀ s t : State, s.turns.head? ≠ some .reset → step s = .next t →
    (∀ a, (s.mem.read a).isSome = true → (t.mem.read a).isSome = true) ∧
    (∀ i, (s.readX i).isSome = true → (t.readX i).isSome = true)

/-! ### Host accesses (20_memory.md) -/

/-- R34, R35: which reads and writes are legal, row by row of R33's map; every other raises BAD_ACCESS,
busy or idle. -/
def Obligations.IllegalAccessesAreExactlyTheBadOnes : Prop :=
  ∀ (addr n : Nat) (v : Word32) (s : State),
    (memRead addr n s = .error .badAccess ↔
      ¬ LegalIn readableRows addr n) ∧
    (memWrite addr n v s = .error .badAccess ↔
      ¬ LegalIn writableRows addr n)

/-- R37 (with the order of R36): a legal idle buffer read gives the bytes little-endian, and faults where
one holds `⊥`; four bytes give `LoadLE32`. -/
def Obligations.BufferReadsAreLittleEndian : Prop :=
  ∀ (s : State) (addr n : Nat), s.status.busy = false → n ∈ [1, 2, 4] → addr % n = 0 →
    ((0x20 ≤ addr ∧ addr + n ≤ 0x50) ∨ (0x60 ≤ addr ∧ addr + n ≤ 0x80)) →
    ((∀ j < n, (s.mem.read (addr + j)).isSome = true) →
      ∃ v : Word32, memRead addr n s = .ok v ∧ v.toNat < 2 ^ (8 * n) ∧
        (∀ j < n, s.mem.read (addr + j) = some (v.extractLsb' (8 * j) 8)) ∧
        (n = 4 → loadLE32 s.mem addr = some v)) ∧
    ((∃ j < n, s.mem.read (addr + j) = none) → memRead addr n s = .error .unwritten)

/-- 20_memory.md R38: a legal idle buffer write sets its `n` bytes little-endian and changes nothing else. -/
def Obligations.BufferWritesSetExactlyTheirBytes : Prop :=
  ∀ (s : State) (addr n : Nat) (v : Word32), s.status.busy = false → n ∈ [1, 2, 4] → addr % n = 0 →
    ((0x20 ≤ addr ∧ addr + n ≤ 0x50) ∨ (0x60 ≤ addr ∧ addr + n ≤ 0x80)) →
    ∃ m : Memory, memWrite addr n v s = .ok { s with mem := m } ∧
      (∀ j < n, m.read (addr + j) = some (v.extractLsb' (8 * j) 8)) ∧
      (∀ a, a < addr ∨ addr + n ≤ a → m.read a = s.mem.read a)

/-- R66: a codec load assembles four bytes, byte 0 least significant, and has no value where one of the
four holds `⊥`; bytes 01 02 03 04 give 0x04030201. -/
def Obligations.ACodecLoadAssemblesFourBytes : Prop :=
  (∀ (m : Memory) (off : Nat) (b0 b1 b2 b3 : Byte),
    m.read off = some b0 → m.read (off + 1) = some b1 → m.read (off + 2) = some b2 →
    m.read (off + 3) = some b3 →
    ∃ v, loadLE32 m off = some v ∧ v.toNat = b0.toNat + b1.toNat * 2 ^ 8 + b2.toNat * 2 ^ 16 +
      b3.toNat * 2 ^ 24) ∧
  (∀ (m : Memory) (off j : Nat), j < 4 → m.read (off + j) = none → loadLE32 m off = none) ∧
  loadLE32 [(0, 0x01#8), (1, 0x02#8), (2, 0x03#8), (3, 0x04#8)] 0 = some 0x04030201#32

/-- The codec store of 40_codec_loader.md R67 sets its four bytes and no other, and the load gives the
word back, the inference R67 marks as the spec's own. -/
def Obligations.TheCodecRoundTrips : Prop :=
  ∀ (m : Memory) (off : Nat) (v : Word32),
    (∀ j < 4, (storeLE32 m off v).read (off + j) = some (v.extractLsb' (8 * j) 8)) ∧
    (∀ a, a < off ∨ off + 4 ≤ a → (storeLE32 m off v).read a = m.read a) ∧
    loadLE32 (storeLE32 m off v) off = some v

/-- R39: XWIN reads and writes of an idle engine reach X[i] at 0x80 + 4i; a read of `⊥` faults; bytes and
halfwords are illegal. -/
def Obligations.XwinReachesTheStateWords : Prop :=
  ∀ (s : State) (i : WordIdx) (v : Word32),
    (s.status.busy = false →
      (∀ w, s.readX i = some w → memRead (0x80 + 4 * i.val) 4 s = .ok w) ∧
      (s.readX i = none → memRead (0x80 + 4 * i.val) 4 s = .error .unwritten) ∧
      ∃ t, memWrite (0x80 + 4 * i.val) 4 v s = .ok t ∧ t.readX i = some v ∧
        SameWordsBut [i] s t ∧ t.mem = s.mem ∧ t.status = s.status ∧ SameControl s t) ∧
    (∀ o n, n = 1 ∨ n = 2 →
      memRead (0x80 + 4 * i.val + o % 4) n s = .error .badAccess ∧
      memWrite (0x80 + 4 * i.val + o % 4) n v s = .error .badAccess)

/-- R25: PARAMS reads 0x00102020 in every state, and a write of it faults. -/
def Obligations.ParamsIsHardwired : Prop :=
  ∀ (s : State) (v : Word32), memRead 0x1C 4 s = .ok 0x00102020#32 ∧
    memWrite 0x1C 4 v s = .error .badAccess

/-- 10_state.md R18: STATUS reads its fields in their places and 0 in the reserved bits, busy or idle. -/
def Obligations.StatusReadsItsFields : Prop :=
  ∀ s : State, ∃ v, memRead 0x04 4 s = .ok v ∧
    v.getLsbD 0 = s.status.busy ∧ v.getLsbD 1 = s.status.done ∧ v.getLsbD 2 = s.status.err ∧
    v.getLsbD 3 = false ∧ (∀ i, 10 ≤ i → v.getLsbD i = false) ∧
    v.extractLsb' 4 4 =
      (match s.status.errCode with | .none => 0#4 | .length => 1#4 | .illegal => 2#4) ∧
    v.extractLsb' 8 2 =
      (match s.status.errParam with | .none => 0#2 | .output => 1#2 | .key => 2#2 | .nonce => 3#2)

/-- 10_state.md R22 to R24: the information and length registers read their values, busy or idle; an idle
length register takes every value written, and nothing else changes. -/
def Obligations.InformationAndLengthRegistersReadBack : Prop :=
  ∀ (s : State) (v : Word32),
    memRead 0x08 4 s = .ok s.einfo0 ∧ memRead 0x0C 4 s = .ok s.einfo1 ∧
    memRead 0x10 4 s = .ok s.outLen ∧ memRead 0x14 4 s = .ok s.keyLen ∧
    memRead 0x18 4 s = .ok s.nonceLen ∧
    (s.status.busy = false →
      memWrite 0x10 4 v s = .ok { s with outLen := v } ∧
      memWrite 0x14 4 v s = .ok { s with keyLen := v } ∧
      memWrite 0x18 4 v s = .ok { s with nonceLen := v })

/-- R40: while BUSY = 1 every legal write and every legal read of a buffer or XWIN raises BUSY_ACCESS;
an illegal access (R34, R35) still raises BAD_ACCESS; the readable registers read their current values.
After an issue STATUS reads 0x00000001 and EINFO0 and EINFO1 read 0. -/
def Obligations.ABusyEngineNarrowsTheHost : Prop :=
  ∀ (s : State) (addr n : Nat) (v : Word32), s.status.busy = true →
    (LegalIn writableRows addr n → memWrite addr n v s = .error .busyAccess) ∧
    (LegalIn readableRows addr n → 0x20 ≤ addr → memRead addr n s = .error .busyAccess) ∧
    (¬ LegalIn writableRows addr n → memWrite addr n v s = .error .badAccess) ∧
    (¬ LegalIn readableRows addr n → memRead addr n s = .error .badAccess) ∧
    memRead 0x04 4 s = .ok s.status.word ∧ memRead 0x08 4 s = .ok s.einfo0 ∧
    memRead 0x0C 4 s = .ok s.einfo1 ∧ memRead 0x10 4 s = .ok s.outLen ∧
    memRead 0x14 4 s = .ok s.keyLen ∧ memRead 0x18 4 s = .ok s.nonceLen ∧
    memRead 0x1C 4 s = .ok 0x00102020#32 ∧
    ∀ u : State, memRead 0x04 4 (u.issue v) = .ok 0x00000001#32 ∧
      memRead 0x08 4 (u.issue v) = .ok 0#32 ∧ memRead 0x0C 4 (u.issue v) = .ok 0#32

/-- 20_memory.md R44, which marks itself as derived: no host move changes anything a latched command reads or writes, nor the latch. -/
def Obligations.NoHostMoveReachesALatchedCommand : Prop :=
  ∀ s t : State, s.status.busy = true → hostStep s = .next t →
    t = { s with host := t.host, replies := t.replies }

/-- 20_memory.md R41: a read changes no state of the engine; a write to a length register, a buffer or XWIN twice is
that write once. -/
def Obligations.ReadsHaveNoSideEffectAndWritesAreIdempotent : Prop :=
  (∀ (s t : State) (addr n : Nat), hostRead addr n s = .next t →
    ∃ v, memRead addr n s = .ok v ∧ t = { s with replies := v :: s.replies }) ∧
  (∀ (s t : State) (addr n : Nat) (v : Word32), s.mem.wf = true → addr ≠ 0x00 →
    memWrite addr n v s = .ok t → memWrite addr n v t = .ok t) ∧
  (∀ (s t : State) (v : Word32), memWrite 0x00 4 v s = .ok t →
    memWrite 0x00 4 v t = .error .busyAccess)

/-! ### The pseudo-instructions (30_encoding.md R62) -/

/-- SETLENS, SETKEY, SETNONCE and SETX, run by an idle engine's host, write the lengths 32, 32, 16, the
key's bytes, the nonce's bytes and the state word, each one access a step, and change nothing else. That a
host whose schedule names nobody moves is the model's choice (log 4). -/
def Obligations.ThePseudoInstructionsWriteTheirCells : Prop :=
  ∀ s : State, s.status.busy = false → s.turns = [] → s.host = [] →
    Sys2Proof.core.run 3 { s with host := setLens } =
      .next { s with outLen := 32#32, keyLen := 32#32, nonceLen := 16#32 } ∧
    (∀ k : Vector Byte 32, ∃ m : Memory,
      Sys2Proof.core.run 8 { s with host := setKey k } = .next { s with mem := m } ∧
      (∀ j : Fin 32, m.read (0x20 + j.val) = some k[j]) ∧
      (∀ a, a < 0x20 ∨ 0x40 ≤ a → m.read a = s.mem.read a)) ∧
    (∀ n : Vector Byte 16, ∃ m : Memory,
      Sys2Proof.core.run 4 { s with host := setNonce n } = .next { s with mem := m } ∧
      (∀ j : Fin 16, m.read (0x40 + j.val) = some n[j]) ∧
      (∀ a, a < 0x40 ∨ 0x50 ≤ a → m.read a = s.mem.read a)) ∧
    (∀ (i : WordIdx) (v : Word32),
      Sys2Proof.core.run 1 { s with host := setX i v } = .next (s.writeX i v))

/-! ### Progress (70_reset_and_hazards.md R137; 20_memory.md R43) -/

/-- A WAIT ends: however many turns the schedule gives the host first, the engine step of the latched
command is then taken, and where it takes a next state the WAIT is left after one more round. The
schedule's end is the model's own (log 4). -/
def Obligations.AWaitEndsAfterTheEngineStep : Prop :=
  ∀ (s t : State) (rest : List HostOp) (k : Nat),
    s.status.busy = true → s.host = .wait :: rest → s.turns = List.replicate k .host →
    engineStep { s with turns := [] } = .next t →
    Sys2Proof.core.run k s = .next { s with turns := [] } ∧
    Sys2Proof.core.run (k + 1) s = .next t ∧
    Sys2Proof.core.run (k + 2) s = .next { t with host := rest }

/-! ### Several engines (00_scope.md R2; 60_exceptions.md R124) -/

/-- 60_exceptions.md R124: a move on a platform that answers a next state changes no engine but the one it
names, or the one whose window holds the bus address, and moves no window. The platform layer is the
model's form of the open parameters (log 12). -/
def Obligations.EnginesOfAPlatformAreIndependent : Prop :=
  ∀ (p p' : Platform) (mv : PlatformMove), p.wf = true → p.move mv = .next p' →
    p'.map Mounted.base = p.map Mounted.base ∧ p'.wf = true ∧
    ∀ (j : Nat) (m : Mounted), p[j]? = some m →
      (match mv with
        | .busRead a _ => m.offset a = none
        | .busWrite a _ _ => m.offset a = none
        | .engine k => j ≠ k
        | .reset k => j ≠ k
        | .scheduled k => j ≠ k) →
      p'[j]? = some m

/-- The bus address BASE + offset (00_scope.md R2, 20_memory.md R30) reaches the engine mounted at BASE, at
that offset, and acts on it as a host access of that engine alone. The platform layer is the model's form
of the open parameters (log 12); that a fault there ends the platform's move is its choice (log 18). -/
def Obligations.BaseAndOffsetReachTheMountedEngine : Prop :=
  ∀ (p : Platform) (k o n : Nat) (m : Mounted) (v : Word32), p.wf = true → p[k]? = some m → o < 256 →
    (∀ t, hostWrite o n v m.engine = .next t →
      p.move (.busWrite (m.base + o) n v) = .next (p.set k { m with engine := t })) ∧
    (∀ t, hostRead o n m.engine = .next t →
      p.move (.busRead (m.base + o) n) = .next (p.set k { m with engine := t })) ∧
    (∀ e, hostWrite o n v m.engine = .fault e → p.move (.busWrite (m.base + o) n v) = .fault e) ∧
    (∀ e, hostRead o n m.engine = .fault e → p.move (.busRead (m.base + o) n) = .fault e)
end

