-- ==== Sys2Proof/Laws/Collect.lean ====
section
/-! SUPPORT. All that the read-before-write of a command body can do: `collect` answers the values of its
cells, or `none` exactly where a cell holds `⊥`. -/

namespace Sys2Proof.Machine

variable {α : Type} {n : Nat} {f : Fin n → Option α}

theorem collect_eq_some_iff {v : Vector α n} : collect f = some v ↔ ∀ i, f i = some v[i] := by
  unfold collect
  constructor
  · intro h i
    split at h
    · rename_i hs
      cases h
      simp
    · cases h
  · intro h
    have hs : ∀ i, (f i).isSome := fun i => by rw [h i]; rfl
    rw [dif_pos hs]
    congr 1
    ext i hi
    have := h ⟨i, hi⟩
    simp [this]

theorem collect_eq_none_iff : collect f = none ↔ ∃ i, f i = none := by
  unfold collect
  split
  · rename_i hs
    simp only [reduceCtorEq, false_iff, not_exists]
    intro i hi
    have := hs i
    rw [hi] at this
    cases this
  · rename_i hs
    simpa using hs

/-- A body's cells all hold values exactly where the reads succeed. -/
theorem collect_isSome_iff : (∃ v, collect f = some v) ↔ ∀ i, (f i).isSome = true := by
  rw [← Option.isSome_iff_exists, Option.isSome_iff_ne_none, ne_eq, collect_eq_none_iff]
  simp [Option.isSome_iff_ne_none]

theorem collect_congr {g : Fin n → Option α} (h : ∀ i, f i = g i) : collect f = collect g := by
  rw [funext h]

end Sys2Proof.Machine
end

