-- ==== Sys2Proof/Laws/Memory.lean ====
section
/-! SUPPORT. The laws of the buffer memory: one byte read after a write, the canonical form kept by every
operation, equal reads give equal memories, and the codec over bytes. -/

namespace Sys2Proof.Machine

/-! ### One byte -/

/-- A write changes the byte it names and no other. -/
theorem Memory.read_write (m : Memory) (a c : Nat) (b : Byte) :
    Memory.read (m.write a b) c = if a = c then some b else m.read c := by
  induction m with
  | nil => simp [Memory.write, Memory.read]
  | cons p m ih =>
    obtain ⟨k, v⟩ := p
    simp only [Memory.write]
    split
    · simp only [Memory.read]
    · split
      · subst_vars
        simp only [Memory.read]
        split <;> rfl
      · rename_i hk
        simp only [Memory.read, ih]
        split <;> split <;> simp_all

theorem Memory.read_write_same (m : Memory) (a : Nat) (b : Byte) :
    Memory.read (m.write a b) a = some b := by
  rw [Memory.read_write, if_pos rfl]

theorem Memory.read_write_ne (m : Memory) {a c : Nat} (b : Byte) (h : a ≠ c) :
    Memory.read (m.write a b) c = m.read c := by
  rw [Memory.read_write, if_neg h]

/-! ### The canonical form -/

theorem Memory.risesFrom_mono {m : Memory} {k l : Nat} (h : l ≤ k) (hm : m.risesFrom k = true) :
    m.risesFrom l = true := by
  cases m with
  | nil => rfl
  | cons p m =>
    simp only [Memory.risesFrom, Bool.and_eq_true, decide_eq_true_eq] at hm ⊢
    exact ⟨h.trans hm.1, hm.2⟩

theorem Memory.risesFrom_write {m : Memory} {k a : Nat} (b : Byte) (hm : m.risesFrom k = true)
    (ha : k ≤ a) : (m.write a b).risesFrom k = true := by
  induction m generalizing k with
  | nil => simp [Memory.write, Memory.risesFrom, ha]
  | cons p m ih =>
    obtain ⟨c, v⟩ := p
    simp only [Memory.risesFrom, Bool.and_eq_true, decide_eq_true_eq] at hm
    simp only [Memory.write]
    split
    · rename_i hlt
      simp only [Memory.risesFrom, Bool.and_eq_true, decide_eq_true_eq]
      exact ⟨ha, hlt, hm.2⟩
    · split
      · rename_i heq
        subst heq
        simp only [Memory.risesFrom, Bool.and_eq_true, decide_eq_true_eq]
        exact hm
      · rename_i hnlt hne
        simp only [Memory.risesFrom, Bool.and_eq_true, decide_eq_true_eq]
        exact ⟨hm.1, ih hm.2 (by omega)⟩

/-- A write keeps the canonical form. -/
theorem Memory.wf_write {m : Memory} (a : Nat) (b : Byte) (hm : m.wf = true) :
    (m.write a b).wf = true :=
  Memory.risesFrom_write b hm (Nat.zero_le a)

theorem Memory.read_of_lt_risesFrom {m : Memory} {k a : Nat} (hm : m.risesFrom k = true) (h : a < k) :
    m.read a = none := by
  induction m generalizing k with
  | nil => rfl
  | cons p m ih =>
    obtain ⟨c, v⟩ := p
    simp only [Memory.risesFrom, Bool.and_eq_true, decide_eq_true_eq] at hm
    rw [Memory.read, if_neg (by omega)]
    exact ih hm.2 (by omega)

/-- Memories in canonical form that read alike are equal data. -/
theorem Memory.eq_of_read_eq {m n : Memory} {k : Nat} (hm : m.risesFrom k = true)
    (hn : n.risesFrom k = true) (h : ∀ a, m.read a = n.read a) : m = n := by
  induction m generalizing n k with
  | nil =>
    cases n with
    | nil => rfl
    | cons q n =>
      have := h q.1
      simp [Memory.read] at this
  | cons p m ih =>
    obtain ⟨a, v⟩ := p
    cases n with
    | nil => simpa [Memory.read] using h a
    | cons q n =>
      obtain ⟨c, w⟩ := q
      simp only [Memory.risesFrom, Bool.and_eq_true, decide_eq_true_eq] at hm hn
      have hac : a = c := by
        rcases Nat.lt_trichotomy a c with hlt | heq | hgt
        · have := h a
          rw [Memory.read, if_pos rfl, Memory.read, if_neg (by omega),
            Memory.read_of_lt_risesFrom hn.2 (by omega)] at this
          cases this
        · exact heq
        · have := h c
          rw [Memory.read, if_neg (by omega), Memory.read_of_lt_risesFrom hm.2 (by omega), Memory.read,
            if_pos rfl] at this
          cases this
      subst hac
      have hv := h a
      rw [Memory.read, if_pos rfl, Memory.read, if_pos rfl] at hv
      cases hv
      congr 1
      refine ih hm.2 hn.2 fun d => ?_
      have hd := h d
      simp only [Memory.read] at hd
      split at hd
      · rename_i heq
        rw [Memory.read_of_lt_risesFrom hm.2 (by omega), Memory.read_of_lt_risesFrom hn.2 (by omega)]
      · exact hd

/-- Writing the byte a canonical memory already holds changes nothing. -/
theorem Memory.write_self {m : Memory} {a : Nat} {b : Byte} (hm : m.wf = true)
    (h : m.read a = some b) : m.write a b = m := by
  refine Memory.eq_of_read_eq (Memory.wf_write a b hm) hm fun c => ?_
  rw [Memory.read_write]
  split
  · subst_vars
    exact h.symm
  · rfl

/-- A write to a buffer offset lists buffer offsets only. -/
theorem Memory.inBuffers_write {m : Memory} {a : Nat} (b : Byte) (hm : m.inBuffers = true)
    (ha : bufferOffset a = true) : (m.write a b).inBuffers = true := by
  induction m with
  | nil => simp [Memory.write, Memory.inBuffers, ha]
  | cons p m ih =>
    obtain ⟨c, v⟩ := p
    simp only [Memory.inBuffers, List.all_cons, Bool.and_eq_true] at hm ih
    simp only [Memory.write]
    split
    · simp [Memory.inBuffers, ha, hm]
    · split
      · simp [Memory.inBuffers, ha, hm]
      · simp only [Memory.inBuffers, List.all_cons, Bool.and_eq_true]
        exact ⟨hm.1, ih hm.2⟩

/-! ### Stores -/

/-- A store sets its `n` bytes and no other (20_memory.md R38). -/
theorem read_storeLE (m : Memory) (off : Nat) (v : Word32) (n a : Nat) :
    Memory.read (storeLE m off v n) a =
      if off ≤ a ∧ a < off + n then some (byteOf v (a - off)) else m.read a := by
  induction n with
  | zero => simp [storeLE]
  | succ n ih =>
    rw [storeLE, Memory.read_write, ih]
    by_cases h : off + n = a
    · subst h
      simp
    · rw [if_neg h]
      congr 1
      simp only [eq_iff_iff]
      omega

theorem wf_storeLE {m : Memory} (off : Nat) (v : Word32) (n : Nat) (hm : m.wf = true) :
    (storeLE m off v n).wf = true := by
  induction n with
  | zero => exact hm
  | succ n ih => exact Memory.wf_write _ _ ih

theorem inBuffers_storeLE {m : Memory} {off n : Nat} (v : Word32) (hm : m.inBuffers = true)
    (h : ∀ j < n, bufferOffset (off + j) = true) : (storeLE m off v n).inBuffers = true := by
  induction n with
  | zero => exact hm
  | succ n ih =>
    exact Memory.inBuffers_write _ (ih fun j hj => h j (by omega)) (h n (by omega))

/-- A store of the same value twice is a store of it once. -/
theorem storeLE_storeLE {m : Memory} (off : Nat) (v : Word32) (n : Nat) (hm : m.wf = true) :
    storeLE (storeLE m off v n) off v n = storeLE m off v n := by
  refine Memory.eq_of_read_eq (wf_storeLE off v n (wf_storeLE off v n hm)) (wf_storeLE off v n hm)
    fun a => ?_
  simp only [read_storeLE]
  split <;> rfl

theorem wf_storeWords {m : Memory} (off : Nat) (ws : List Word32) (hm : m.wf = true) :
    (storeWords m off ws).wf = true := by
  induction ws generalizing m off with
  | nil => exact hm
  | cons w ws ih => exact ih _ (wf_storeLE off w 4 hm)

theorem inBuffers_storeWords {m : Memory} {off : Nat} (ws : List Word32) (hm : m.inBuffers = true)
    (h : ∀ j < 4 * ws.length, bufferOffset (off + j) = true) :
    (storeWords m off ws).inBuffers = true := by
  induction ws generalizing m off with
  | nil => exact hm
  | cons w ws ih =>
    rw [List.length_cons] at h
    refine ih (inBuffers_storeLE w hm fun j hj => h j (by omega)) fun j hj => ?_
    have := h (4 + j) (by omega)
    rwa [← Nat.add_assoc] at this

/-- Words stored one after another leave every byte outside them alone. -/
theorem read_storeWords_outside (m : Memory) (off : Nat) (ws : List Word32) (a : Nat)
    (h : a < off ∨ off + 4 * ws.length ≤ a) : Memory.read (storeWords m off ws) a = m.read a := by
  induction ws generalizing m off with
  | nil => rfl
  | cons w ws ih =>
    rw [List.length_cons] at h
    rw [storeWords, ih _ _ (by omega), storeLE32, read_storeLE, if_neg (by omega)]

/-- Byte `4k + j` of words stored one after another is byte `j` of word `k`. -/
theorem read_storeWords (m : Memory) (off : Nat) (ws : List Word32) (k j : Nat) (hk : k < ws.length)
    (hj : j < 4) : Memory.read (storeWords m off ws) (off + 4 * k + j) = some (byteOf ws[k] j) := by
  induction ws generalizing m off k with
  | nil => cases hk
  | cons w ws ih =>
    cases k with
    | zero =>
      rw [storeWords, read_storeWords_outside _ _ _ _ (by omega), storeLE32, read_storeLE,
        if_pos (by omega)]
      simp
    | succ k =>
      have := ih (storeLE32 m off w) (off + 4) k (by simpa using hk)
      rw [storeWords, show off + 4 * (k + 1) + j = off + 4 + 4 * k + j by omega, this]
      simp

theorem read_storeWords_isSome (m : Memory) (off : Nat) (ws : List Word32) (a : Nat)
    (h : (m.read a).isSome = true) : (Memory.read (storeWords m off ws) a).isSome = true := by
  induction ws generalizing m off with
  | nil => exact h
  | cons w ws ih =>
    refine ih _ _ ?_
    rw [storeLE32, read_storeLE]
    split
    · rfl
    · exact h

/-! ### Loads -/

/-- A load succeeds exactly where all its bytes hold values (20_memory.md R37). -/
theorem loadLE_isSome_iff (m : Memory) (off n : Nat) :
    (loadLE m off n).isSome = true ↔ ∀ j < n, (m.read (off + j)).isSome = true := by
  induction n with
  | zero => simp [loadLE]
  | succ n ih =>
    rw [loadLE, Nat.forall_lt_succ_right, ← ih]
    cases loadLE m off n <;> cases m.read (off + n) <;> simp

/-- A load depends on its bytes only. -/
theorem loadLE_congr {m m' : Memory} {off n : Nat} (h : ∀ j < n, m.read (off + j) = m'.read (off + j)) :
    loadLE m off n = loadLE m' off n := by
  induction n with
  | zero => rfl
  | succ n ih => rw [loadLE, loadLE, ih fun j hj => h j (by omega), h n (by omega)]

/-- `LoadLE32` from its four bytes (40_codec_loader.md R66). -/
theorem loadLE32_eq_wordOfBytes {m : Memory} {off : Nat} {b0 b1 b2 b3 : Byte}
    (h0 : m.read off = some b0) (h1 : m.read (off + 1) = some b1) (h2 : m.read (off + 2) = some b2)
    (h3 : m.read (off + 3) = some b3) : loadLE32 m off = some (wordOfBytes b0 b1 b2 b3) := by
  simp [loadLE32, loadLE, wordOfBytes, h0, h1, h2, h3]

/-- Bit `8j + i` of a load is bit `i` of byte `j` (20_memory.md R36, R37). -/
theorem byteOf_loadLE {m : Memory} {off n : Nat} {v : Word32} (hn : n ≤ 4)
    (h : loadLE m off n = some v) : ∀ j < n, m.read (off + j) = some (byteOf v j) := by
  have key : ∀ n v, n ≤ 4 → loadLE m off n = some v →
      (∀ j < n, m.read (off + j) = some (byteOf v j)) ∧ ∀ i, 8 * n ≤ i → v.getLsbD i = false := by
    intro n
    induction n with
    | zero =>
      intro v _ h
      cases h
      simp
    | succ n ih =>
      intro v hn h
      rw [loadLE] at h
      split at h
      · rename_i u b hu hb
        cases h
        obtain ⟨ih1, ih2⟩ := ih u (by omega) hu
        refine ⟨fun j hj => ?_, fun i hi => ?_⟩
        · rcases Nat.lt_succ_iff_lt_or_eq.1 hj with hlt | rfl
          · rw [ih1 j hlt]
            congr 1
            ext i hi
            simp only [byteOf, BitVec.getElem_extractLsb', BitVec.getLsbD_or, BitVec.getLsbD_shiftLeft,
              BitVec.getLsbD_setWidth]
            rw [show decide (8 * j + i < 8 * n) = true by simp; omega]
            simp
          · rw [hb]
            congr 1
            ext i hi
            simp only [byteOf, BitVec.getElem_extractLsb', BitVec.getLsbD_or, BitVec.getLsbD_shiftLeft,
              BitVec.getLsbD_setWidth, ih2 _ (Nat.le_add_right _ i)]
            rw [show decide (8 * j + i < 32) = true by simp; omega,
              show decide (8 * j + i < 8 * j) = false by simp, Nat.add_sub_cancel_left,
              show decide (i < 32) = true by simp; omega]
            simp [BitVec.getLsbD_eq_getElem hi]
        · rw [BitVec.getLsbD_or, ih2 i (by omega), BitVec.getLsbD_shiftLeft, BitVec.getLsbD_setWidth,
            BitVec.getLsbD_of_ge b _ (by omega)]
          simp
      · cases h
  exact (key n v hn h).1

/-- A load of fewer than four bytes is below `2^(8n)`. -/
theorem getLsbD_loadLE {m : Memory} {off n : Nat} {v : Word32} (h : loadLE m off n = some v) (i : Nat)
    (hi : 8 * n ≤ i) : v.getLsbD i = false := by
  induction n generalizing v with
  | zero => cases h; simp
  | succ n ih =>
    rw [loadLE] at h
    split at h
    · rename_i u b hu hb
      cases h
      rw [BitVec.getLsbD_or, ih hu (by omega), BitVec.getLsbD_shiftLeft, BitVec.getLsbD_setWidth,
        BitVec.getLsbD_of_ge b _ (by omega)]
      simp
    · cases h

/-- A word whose four bytes stand in memory is what `LoadLE32` reads there. -/
theorem loadLE32_of_bytes {m : Memory} {off : Nat} {v : Word32}
    (h : ∀ j < 4, m.read (off + j) = some (byteOf v j)) : loadLE32 m off = some v := by
  have hs : (loadLE m off 4).isSome = true := (loadLE_isSome_iff m off 4).2 fun j hj => by rw [h j hj]; rfl
  obtain ⟨u, hu⟩ := Option.isSome_iff_exists.1 hs
  rw [loadLE32, hu]
  congr 1
  apply BitVec.eq_of_getLsbD_eq
  intro i hi
  have hb := byteOf_loadLE (le_refl 4) hu (i / 8) (by omega)
  rw [h _ (by omega)] at hb
  have hb' := congrArg (fun b => BitVec.getLsbD b (i % 8)) (Option.some.inj hb)
  simp only [byteOf, BitVec.getLsbD_extractLsb', Nat.div_add_mod] at hb'
  rw [show decide (i % 8 < 8) = true by simp; omega] at hb'
  simpa using hb'.symm

/-- `LoadLE32(StoreLE32(b, o, v), o) = v` (40_codec_loader.md R67). -/
theorem loadLE32_storeLE32 (m : Memory) (off : Nat) (v : Word32) :
    loadLE32 (storeLE32 m off v) off = some v := by
  refine loadLE32_of_bytes fun j hj => ?_
  rw [storeLE32, read_storeLE, if_pos (by omega), Nat.add_sub_cancel_left]

/-- Word `k` of words stored one after another reads back. -/
theorem loadLE32_storeWords (m : Memory) (off : Nat) (ws : List Word32) (k : Nat) (hk : k < ws.length) :
    loadLE32 (storeWords m off ws) (off + 4 * k) = some ws[k] :=
  loadLE32_of_bytes fun j hj => read_storeWords m off ws k j hk hj

end Sys2Proof.Machine
end

