-- ==== Sys2Proof/Laws/State.lean ====
section
/-! SUPPORT. What each named update of State does to each field, and what reading a state word after an
update gives: cited instead of unfolding a record update. -/

namespace Sys2Proof.Machine

/-! ### `complete` -/

@[simp] theorem State.complete_x (s : State) : s.complete.x = s.x := rfl
@[simp] theorem State.complete_mem (s : State) : s.complete.mem = s.mem := rfl
@[simp] theorem State.complete_cmdLatch (s : State) : s.complete.cmdLatch = s.cmdLatch := rfl
@[simp] theorem State.complete_status (s : State) : s.complete.status = s.status.completed := rfl
@[simp] theorem State.complete_einfo0 (s : State) : s.complete.einfo0 = s.einfo0 := rfl
@[simp] theorem State.complete_einfo1 (s : State) : s.complete.einfo1 = s.einfo1 := rfl
@[simp] theorem State.complete_outLen (s : State) : s.complete.outLen = s.outLen := rfl
@[simp] theorem State.complete_keyLen (s : State) : s.complete.keyLen = s.keyLen := rfl
@[simp] theorem State.complete_nonceLen (s : State) : s.complete.nonceLen = s.nonceLen := rfl
@[simp] theorem State.complete_replies (s : State) : s.complete.replies = s.replies := rfl
@[simp] theorem State.complete_host (s : State) : s.complete.host = s.host := rfl
@[simp] theorem State.complete_turns (s : State) : s.complete.turns = s.turns := rfl

/-! ### `signalError` -/

@[simp] theorem State.signalError_x (s : State) (code : ErrCode) (param : ErrParam) (u v : Word32) : (s.signalError code param u v).x = s.x := rfl
@[simp] theorem State.signalError_mem (s : State) (code : ErrCode) (param : ErrParam) (u v : Word32) : (s.signalError code param u v).mem = s.mem := rfl
@[simp] theorem State.signalError_cmdLatch (s : State) (code : ErrCode) (param : ErrParam) (u v : Word32) : (s.signalError code param u v).cmdLatch = s.cmdLatch := rfl
@[simp] theorem State.signalError_status (s : State) (code : ErrCode) (param : ErrParam) (u v : Word32) : (s.signalError code param u v).status = Status.signalled code param := rfl
@[simp] theorem State.signalError_einfo0 (s : State) (code : ErrCode) (param : ErrParam) (u v : Word32) : (s.signalError code param u v).einfo0 = u := rfl
@[simp] theorem State.signalError_einfo1 (s : State) (code : ErrCode) (param : ErrParam) (u v : Word32) : (s.signalError code param u v).einfo1 = v := rfl
@[simp] theorem State.signalError_outLen (s : State) (code : ErrCode) (param : ErrParam) (u v : Word32) : (s.signalError code param u v).outLen = s.outLen := rfl
@[simp] theorem State.signalError_keyLen (s : State) (code : ErrCode) (param : ErrParam) (u v : Word32) : (s.signalError code param u v).keyLen = s.keyLen := rfl
@[simp] theorem State.signalError_nonceLen (s : State) (code : ErrCode) (param : ErrParam) (u v : Word32) : (s.signalError code param u v).nonceLen = s.nonceLen := rfl
@[simp] theorem State.signalError_replies (s : State) (code : ErrCode) (param : ErrParam) (u v : Word32) : (s.signalError code param u v).replies = s.replies := rfl
@[simp] theorem State.signalError_host (s : State) (code : ErrCode) (param : ErrParam) (u v : Word32) : (s.signalError code param u v).host = s.host := rfl
@[simp] theorem State.signalError_turns (s : State) (code : ErrCode) (param : ErrParam) (u v : Word32) : (s.signalError code param u v).turns = s.turns := rfl

/-! ### `signalIllegal` -/

@[simp] theorem State.signalIllegal_x (s : State) (v : Word32) : (s.signalIllegal v).x = s.x := rfl
@[simp] theorem State.signalIllegal_mem (s : State) (v : Word32) : (s.signalIllegal v).mem = s.mem := rfl
@[simp] theorem State.signalIllegal_cmdLatch (s : State) (v : Word32) : (s.signalIllegal v).cmdLatch = s.cmdLatch := rfl
@[simp] theorem State.signalIllegal_status (s : State) (v : Word32) : (s.signalIllegal v).status = Status.signalled .illegal .none := rfl
@[simp] theorem State.signalIllegal_einfo0 (s : State) (v : Word32) : (s.signalIllegal v).einfo0 = v := rfl
@[simp] theorem State.signalIllegal_einfo1 (s : State) (v : Word32) : (s.signalIllegal v).einfo1 = 0#32 := rfl
@[simp] theorem State.signalIllegal_outLen (s : State) (v : Word32) : (s.signalIllegal v).outLen = s.outLen := rfl
@[simp] theorem State.signalIllegal_keyLen (s : State) (v : Word32) : (s.signalIllegal v).keyLen = s.keyLen := rfl
@[simp] theorem State.signalIllegal_nonceLen (s : State) (v : Word32) : (s.signalIllegal v).nonceLen = s.nonceLen := rfl
@[simp] theorem State.signalIllegal_replies (s : State) (v : Word32) : (s.signalIllegal v).replies = s.replies := rfl
@[simp] theorem State.signalIllegal_host (s : State) (v : Word32) : (s.signalIllegal v).host = s.host := rfl
@[simp] theorem State.signalIllegal_turns (s : State) (v : Word32) : (s.signalIllegal v).turns = s.turns := rfl

/-! ### `issue` -/

@[simp] theorem State.issue_x (s : State) (v : Word32) : (s.issue v).x = s.x := rfl
@[simp] theorem State.issue_mem (s : State) (v : Word32) : (s.issue v).mem = s.mem := rfl
@[simp] theorem State.issue_cmdLatch (s : State) (v : Word32) : (s.issue v).cmdLatch = some v := rfl
@[simp] theorem State.issue_status (s : State) (v : Word32) : (s.issue v).status = Status.issued := rfl
@[simp] theorem State.issue_einfo0 (s : State) (v : Word32) : (s.issue v).einfo0 = 0#32 := rfl
@[simp] theorem State.issue_einfo1 (s : State) (v : Word32) : (s.issue v).einfo1 = 0#32 := rfl
@[simp] theorem State.issue_outLen (s : State) (v : Word32) : (s.issue v).outLen = s.outLen := rfl
@[simp] theorem State.issue_keyLen (s : State) (v : Word32) : (s.issue v).keyLen = s.keyLen := rfl
@[simp] theorem State.issue_nonceLen (s : State) (v : Word32) : (s.issue v).nonceLen = s.nonceLen := rfl
@[simp] theorem State.issue_replies (s : State) (v : Word32) : (s.issue v).replies = s.replies := rfl
@[simp] theorem State.issue_host (s : State) (v : Word32) : (s.issue v).host = s.host := rfl
@[simp] theorem State.issue_turns (s : State) (v : Word32) : (s.issue v).turns = s.turns := rfl

/-! ### `setMem` -/

@[simp] theorem State.setMem_x (s : State) (m : Memory) : (s.setMem m).x = s.x := rfl
@[simp] theorem State.setMem_mem (s : State) (m : Memory) : (s.setMem m).mem = m := rfl
@[simp] theorem State.setMem_cmdLatch (s : State) (m : Memory) : (s.setMem m).cmdLatch = s.cmdLatch := rfl
@[simp] theorem State.setMem_status (s : State) (m : Memory) : (s.setMem m).status = s.status := rfl
@[simp] theorem State.setMem_einfo0 (s : State) (m : Memory) : (s.setMem m).einfo0 = s.einfo0 := rfl
@[simp] theorem State.setMem_einfo1 (s : State) (m : Memory) : (s.setMem m).einfo1 = s.einfo1 := rfl
@[simp] theorem State.setMem_outLen (s : State) (m : Memory) : (s.setMem m).outLen = s.outLen := rfl
@[simp] theorem State.setMem_keyLen (s : State) (m : Memory) : (s.setMem m).keyLen = s.keyLen := rfl
@[simp] theorem State.setMem_nonceLen (s : State) (m : Memory) : (s.setMem m).nonceLen = s.nonceLen := rfl
@[simp] theorem State.setMem_replies (s : State) (m : Memory) : (s.setMem m).replies = s.replies := rfl
@[simp] theorem State.setMem_host (s : State) (m : Memory) : (s.setMem m).host = s.host := rfl
@[simp] theorem State.setMem_turns (s : State) (m : Memory) : (s.setMem m).turns = s.turns := rfl

/-! ### `setWords` -/

@[simp] theorem State.setWords_x (s : State) (w : Words) : (s.setWords w).x = Vector.ofFn fun i => some w[i] := rfl
@[simp] theorem State.setWords_mem (s : State) (w : Words) : (s.setWords w).mem = s.mem := rfl
@[simp] theorem State.setWords_cmdLatch (s : State) (w : Words) : (s.setWords w).cmdLatch = s.cmdLatch := rfl
@[simp] theorem State.setWords_status (s : State) (w : Words) : (s.setWords w).status = s.status := rfl
@[simp] theorem State.setWords_einfo0 (s : State) (w : Words) : (s.setWords w).einfo0 = s.einfo0 := rfl
@[simp] theorem State.setWords_einfo1 (s : State) (w : Words) : (s.setWords w).einfo1 = s.einfo1 := rfl
@[simp] theorem State.setWords_outLen (s : State) (w : Words) : (s.setWords w).outLen = s.outLen := rfl
@[simp] theorem State.setWords_keyLen (s : State) (w : Words) : (s.setWords w).keyLen = s.keyLen := rfl
@[simp] theorem State.setWords_nonceLen (s : State) (w : Words) : (s.setWords w).nonceLen = s.nonceLen := rfl
@[simp] theorem State.setWords_replies (s : State) (w : Words) : (s.setWords w).replies = s.replies := rfl
@[simp] theorem State.setWords_host (s : State) (w : Words) : (s.setWords w).host = s.host := rfl
@[simp] theorem State.setWords_turns (s : State) (w : Words) : (s.setWords w).turns = s.turns := rfl

/-! ### `writeX` -/

@[simp] theorem State.writeX_x (s : State) (i : WordIdx) (v : Word32) : (s.writeX i v).x = s.x.set i (some v) := rfl
@[simp] theorem State.writeX_mem (s : State) (i : WordIdx) (v : Word32) : (s.writeX i v).mem = s.mem := rfl
@[simp] theorem State.writeX_cmdLatch (s : State) (i : WordIdx) (v : Word32) : (s.writeX i v).cmdLatch = s.cmdLatch := rfl
@[simp] theorem State.writeX_status (s : State) (i : WordIdx) (v : Word32) : (s.writeX i v).status = s.status := rfl
@[simp] theorem State.writeX_einfo0 (s : State) (i : WordIdx) (v : Word32) : (s.writeX i v).einfo0 = s.einfo0 := rfl
@[simp] theorem State.writeX_einfo1 (s : State) (i : WordIdx) (v : Word32) : (s.writeX i v).einfo1 = s.einfo1 := rfl
@[simp] theorem State.writeX_outLen (s : State) (i : WordIdx) (v : Word32) : (s.writeX i v).outLen = s.outLen := rfl
@[simp] theorem State.writeX_keyLen (s : State) (i : WordIdx) (v : Word32) : (s.writeX i v).keyLen = s.keyLen := rfl
@[simp] theorem State.writeX_nonceLen (s : State) (i : WordIdx) (v : Word32) : (s.writeX i v).nonceLen = s.nonceLen := rfl
@[simp] theorem State.writeX_replies (s : State) (i : WordIdx) (v : Word32) : (s.writeX i v).replies = s.replies := rfl
@[simp] theorem State.writeX_host (s : State) (i : WordIdx) (v : Word32) : (s.writeX i v).host = s.host := rfl
@[simp] theorem State.writeX_turns (s : State) (i : WordIdx) (v : Word32) : (s.writeX i v).turns = s.turns := rfl

/-! ### `resetEngine` -/

@[simp] theorem State.resetEngine_x (s : State) : s.resetEngine.x = State.reset.x := rfl
@[simp] theorem State.resetEngine_mem (s : State) : s.resetEngine.mem = State.reset.mem := rfl
@[simp] theorem State.resetEngine_cmdLatch (s : State) : s.resetEngine.cmdLatch = State.reset.cmdLatch := rfl
@[simp] theorem State.resetEngine_status (s : State) : s.resetEngine.status = State.reset.status := rfl
@[simp] theorem State.resetEngine_einfo0 (s : State) : s.resetEngine.einfo0 = State.reset.einfo0 := rfl
@[simp] theorem State.resetEngine_einfo1 (s : State) : s.resetEngine.einfo1 = State.reset.einfo1 := rfl
@[simp] theorem State.resetEngine_outLen (s : State) : s.resetEngine.outLen = State.reset.outLen := rfl
@[simp] theorem State.resetEngine_keyLen (s : State) : s.resetEngine.keyLen = State.reset.keyLen := rfl
@[simp] theorem State.resetEngine_nonceLen (s : State) : s.resetEngine.nonceLen = State.reset.nonceLen := rfl
@[simp] theorem State.resetEngine_replies (s : State) : s.resetEngine.replies = s.replies := rfl
@[simp] theorem State.resetEngine_host (s : State) : s.resetEngine.host = s.host := rfl
@[simp] theorem State.resetEngine_turns (s : State) : s.resetEngine.turns = s.turns := rfl

/-! ### `writeXs` -/

@[simp] theorem State.writeXs_mem (s : State) (ws : List (WordIdx × Word32)) :
    (s.writeXs ws).mem = s.mem := by
  induction ws generalizing s with
  | nil => rfl
  | cons p ws ih => exact ih (s.writeX p.1 p.2)

@[simp] theorem State.writeXs_cmdLatch (s : State) (ws : List (WordIdx × Word32)) :
    (s.writeXs ws).cmdLatch = s.cmdLatch := by
  induction ws generalizing s with
  | nil => rfl
  | cons p ws ih => exact ih (s.writeX p.1 p.2)

@[simp] theorem State.writeXs_status (s : State) (ws : List (WordIdx × Word32)) :
    (s.writeXs ws).status = s.status := by
  induction ws generalizing s with
  | nil => rfl
  | cons p ws ih => exact ih (s.writeX p.1 p.2)

@[simp] theorem State.writeXs_einfo0 (s : State) (ws : List (WordIdx × Word32)) :
    (s.writeXs ws).einfo0 = s.einfo0 := by
  induction ws generalizing s with
  | nil => rfl
  | cons p ws ih => exact ih (s.writeX p.1 p.2)

@[simp] theorem State.writeXs_einfo1 (s : State) (ws : List (WordIdx × Word32)) :
    (s.writeXs ws).einfo1 = s.einfo1 := by
  induction ws generalizing s with
  | nil => rfl
  | cons p ws ih => exact ih (s.writeX p.1 p.2)

@[simp] theorem State.writeXs_outLen (s : State) (ws : List (WordIdx × Word32)) :
    (s.writeXs ws).outLen = s.outLen := by
  induction ws generalizing s with
  | nil => rfl
  | cons p ws ih => exact ih (s.writeX p.1 p.2)

@[simp] theorem State.writeXs_keyLen (s : State) (ws : List (WordIdx × Word32)) :
    (s.writeXs ws).keyLen = s.keyLen := by
  induction ws generalizing s with
  | nil => rfl
  | cons p ws ih => exact ih (s.writeX p.1 p.2)

@[simp] theorem State.writeXs_nonceLen (s : State) (ws : List (WordIdx × Word32)) :
    (s.writeXs ws).nonceLen = s.nonceLen := by
  induction ws generalizing s with
  | nil => rfl
  | cons p ws ih => exact ih (s.writeX p.1 p.2)

@[simp] theorem State.writeXs_replies (s : State) (ws : List (WordIdx × Word32)) :
    (s.writeXs ws).replies = s.replies := by
  induction ws generalizing s with
  | nil => rfl
  | cons p ws ih => exact ih (s.writeX p.1 p.2)

@[simp] theorem State.writeXs_host (s : State) (ws : List (WordIdx × Word32)) :
    (s.writeXs ws).host = s.host := by
  induction ws generalizing s with
  | nil => rfl
  | cons p ws ih => exact ih (s.writeX p.1 p.2)

@[simp] theorem State.writeXs_turns (s : State) (ws : List (WordIdx × Word32)) :
    (s.writeXs ws).turns = s.turns := by
  induction ws generalizing s with
  | nil => rfl
  | cons p ws ih => exact ih (s.writeX p.1 p.2)

/-! ### Reading state words -/

theorem State.readX_eq (s : State) (i : WordIdx) : s.readX i = s.x[i] := rfl

@[simp] theorem State.readX_complete (s : State) (i : WordIdx) : s.complete.readX i = s.readX i := rfl

@[simp] theorem State.readX_setMem (s : State) (m : Memory) (i : WordIdx) :
    (s.setMem m).readX i = s.readX i := rfl

@[simp] theorem State.readX_signalError (s : State) (c : ErrCode) (p : ErrParam) (u v : Word32)
    (i : WordIdx) : (s.signalError c p u v).readX i = s.readX i := rfl

@[simp] theorem State.readX_setWords (s : State) (w : Words) (i : WordIdx) :
    (s.setWords w).readX i = some w[i] := by
  simp [State.readX]

/-- A write changes the word it names and no other. -/
theorem State.readX_writeX (s : State) (i j : WordIdx) (v : Word32) :
    (s.writeX i v).readX j = if i = j then some v else s.readX j := by
  simp only [State.readX, State.writeX_x, Fin.getElem_fin, Vector.getElem_set, Fin.val_inj]

/-- A list of writes leaves every word alone that it does not name. -/
theorem State.readX_writeXs_of_notMem (s : State) (ws : List (WordIdx × Word32)) (j : WordIdx)
    (h : j ∉ ws.map Prod.fst) : (s.writeXs ws).readX j = s.readX j := by
  induction ws generalizing s with
  | nil => rfl
  | cons p ws ih =>
    rw [List.map_cons, List.mem_cons, not_or] at h
    rw [State.writeXs, ih _ h.2, State.readX_writeX, if_neg (Ne.symm h.1)]

/-- A list of writes to distinct words gives each word its value. -/
theorem State.readX_writeXs_of_mem (s : State) (ws : List (WordIdx × Word32)) (j : WordIdx) (v : Word32)
    (hd : (ws.map Prod.fst).Nodup) (h : (j, v) ∈ ws) : (s.writeXs ws).readX j = some v := by
  induction ws generalizing s with
  | nil => cases h
  | cons p ws ih =>
    rw [List.map_cons, List.nodup_cons] at hd
    rcases List.mem_cons.1 h with rfl | h
    · rw [State.writeXs, State.readX_writeXs_of_notMem _ _ _ hd.1, State.readX_writeX, if_pos rfl]
    · exact ih _ hd.2 h

/-- A list of writes never makes a word `⊥`. -/
theorem State.readX_writeXs_isSome (s : State) (ws : List (WordIdx × Word32)) (j : WordIdx)
    (h : (s.readX j).isSome = true) : ((s.writeXs ws).readX j).isSome = true := by
  induction ws generalizing s with
  | nil => exact h
  | cons p ws ih =>
    refine ih _ ?_
    rw [State.readX_writeX]
    split
    · rfl
    · exact h

/-- States that agree on every word read have the same words. -/
theorem State.x_ext {s t : State} (h : ∀ i, t.readX i = s.readX i) : t.x = s.x := by
  ext1 i hi
  exact h ⟨i, hi⟩

end Sys2Proof.Machine
end

