-- ==== Sys2Proof/Laws/Commands.lean ====
section
/-! SUPPORT. All that each command can do: when its reads succeed, and what it answers then. -/

namespace Sys2Proof.Machine

/-! ### Reads -/

theorem loadLE32_isSome_iff (m : Memory) (off : Nat) :
    (loadLE32 m off).isSome = true ↔ ∀ j < 4, (m.read (off + j)).isSome = true :=
  loadLE_isSome_iff m off 4

/-- The key words can be read exactly where all key bytes hold values (40_codec_loader.md R71). -/
theorem keyWords_isSome_iff (s : State) : (∃ k, s.keyWords = some k) ↔ s.keyWritten := by
  rw [State.keyWords, collect_isSome_iff]
  simp only [loadLE32_isSome_iff, keyBase]
  constructor
  · intro h j hj
    have := h ⟨j / 4, by omega⟩ (j % 4) (by omega)
    rwa [show 0x20 + 4 * (j / 4) + j % 4 = 0x20 + j by omega] at this
  · intro h i j hj
    rw [Nat.add_assoc]
    exact h _ (by omega)

/-- The nonce words can be read exactly where all nonce bytes hold values (R72). -/
theorem nonceWords_isSome_iff (s : State) : (∃ n, s.nonceWords = some n) ↔ s.nonceWritten := by
  rw [State.nonceWords, collect_isSome_iff]
  simp only [loadLE32_isSome_iff, nonceBase]
  constructor
  · intro h j hj
    have := h ⟨j / 4, by omega⟩ (j % 4) (by omega)
    rwa [show 0x40 + 4 * (j / 4) + j % 4 = 0x40 + j by omega] at this
  · intro h i j hj
    rw [Nat.add_assoc]
    exact h _ (by omega)

theorem allWords_isSome_iff (s : State) : (∃ w, s.allWords = some w) ↔ s.allXWritten := by
  rw [State.allWords, collect_isSome_iff]

theorem allWords_eq_some_iff (s : State) (w : Words) :
    s.allWords = some w ↔ ∀ i : WordIdx, s.readX i = some w[i] := by
  rw [State.allWords, collect_eq_some_iff]

/-! Completion reads nothing and changes no cell. -/

@[simp] theorem State.keyWords_complete (s : State) : s.complete.keyWords = s.keyWords := rfl

@[simp] theorem State.nonceWords_complete (s : State) : s.complete.nonceWords = s.nonceWords := rfl

@[simp] theorem State.allWords_complete (s : State) : s.complete.allWords = s.allWords := rfl

@[simp] theorem State.outWords_complete (s : State) : s.complete.outWords = s.outWords := rfl

/-- A fully written state's words are its `x`. -/
theorem allWords_setWords (s : State) (w : Words) : (s.setWords w).allWords = some w :=
  (allWords_eq_some_iff _ _).2 fun i => State.readX_setWords s w i

theorem outWords_isSome_iff (s : State) : (∃ w, s.outWords = some w) ↔ s.outXWritten := by
  rw [State.outWords, collect_isSome_iff, State.outXWritten]
  constructor
  · intro h i hi
    have : ∃ j : Fin 8, opos[j] = i := by
      revert i
      decide
    obtain ⟨j, rfl⟩ := this
    exact h j
  · intro h j
    refine h _ ?_
    revert j
    decide

theorem option_eq_none_of_not_exists {α : Type} {o : Option α} (h : ¬ ∃ v, o = some v) : o = none := by
  cases o with
  | none => rfl
  | some v => exact absurd ⟨v, rfl⟩ h

/-! ### What the commands answer -/

@[simp] theorem endBody_some (s : State) : endBody (some s) = .next s.complete := rfl

@[simp] theorem endBody_none : endBody none = .fault .unwritten := rfl

theorem endBody_eq_next {o : Option State} {t : State} (h : endBody o = .next t) :
    ∃ u, o = some u ∧ t = u.complete := by
  cases o with
  | none => cases h
  | some u => cases h; exact ⟨u, rfl, rfl⟩

theorem execLoadk_next {s : State} {k : Vector Word32 8} (h : s.keyWords = some k) :
    exec .loadk s = .next (s.placeKey k).complete := by
  simp [exec, execLoadk, h]

theorem execLoadn_next {s : State} {n : Vector Word32 4} (h : s.nonceWords = some n) :
    exec .loadn s = .next (s.placeNonce n).complete := by
  simp [exec, execLoadn, h]

theorem loadBody_some {s : State} {k : Vector Word32 8} {n : Vector Word32 4} (hk : s.keyWords = some k)
    (hn : s.nonceWords = some n) :
    loadBody s = some ((s.placeConstants.placeKey k).placeNonce n) := by
  unfold loadBody
  rw [hk, hn]

theorem loadBody_eq_some {s t : State} (h : loadBody s = some t) : ∃ k n, s.keyWords = some k ∧
    s.nonceWords = some n ∧ t = (s.placeConstants.placeKey k).placeNonce n := by
  unfold loadBody at h
  split at h
  · rename_i k n hk hn
    cases h
    exact ⟨k, n, hk, hn, rfl⟩
  · cases h

theorem loadBody_isSome_iff (s : State) :
    (∃ t, loadBody s = some t) ↔ s.keyWritten ∧ s.nonceWritten := by
  rw [← keyWords_isSome_iff, ← nonceWords_isSome_iff]
  constructor
  · rintro ⟨t, h⟩
    obtain ⟨k, n, hk, hn, -⟩ := loadBody_eq_some h
    exact ⟨⟨k, hk⟩, ⟨n, hn⟩⟩
  · rintro ⟨⟨k, hk⟩, ⟨n, hn⟩⟩
    exact ⟨_, loadBody_some hk hn⟩

theorem onAllWords_some {f : Words → Words} {s : State} {w : Words} (h : s.allWords = some w) :
    onAllWords f s = some (s.setWords (f w)) := by
  simp [onAllWords, h]

theorem onAllWords_eq_some {f : Words → Words} {s t : State} (h : onAllWords f s = some t) :
    ∃ w, s.allWords = some w ∧ t = s.setWords (f w) := by
  unfold onAllWords at h
  obtain ⟨w, hw, rfl⟩ := Option.map_eq_some_iff.1 h
  exact ⟨w, hw, rfl⟩

theorem onAllWords_none {f : Words → Words} {s : State} (h : ¬ s.allXWritten) :
    onAllWords f s = none := by
  rw [onAllWords, option_eq_none_of_not_exists (mt (allWords_isSome_iff s).1 h)]
  rfl

theorem extractBody_eq_some {s t : State} (h : extractBody s = some t) :
    ∃ ws, s.outWords = some ws ∧ t = s.setMem (storeWords s.mem outBase ws.toList) := by
  unfold extractBody at h
  obtain ⟨w, hw, rfl⟩ := Option.map_eq_some_iff.1 h
  exact ⟨w, hw, rfl⟩

theorem qrBody_eq_some {a b c d : WordIdx} {s t : State} (h : qrBody a b c d s = some t) :
    ∃ wa wb wc wd, s.readX a = some wa ∧ s.readX b = some wb ∧ s.readX c = some wc ∧
      s.readX d = some wd ∧
      t = s.writeXs [(a, (quarterRound wa wb wc wd).1), (b, (quarterRound wa wb wc wd).2.1),
        (c, (quarterRound wa wb wc wd).2.2.1), (d, (quarterRound wa wb wc wd).2.2.2)] := by
  unfold qrBody at h
  split at h
  · rename_i wa wb wc wd ha hb hc hd
    cases h
    exact ⟨wa, wb, wc, wd, ha, hb, hc, hd, rfl⟩
  · cases h

theorem qrBody_some {a b c d : WordIdx} {s : State} {wa wb wc wd : Word32} (ha : s.readX a = some wa)
    (hb : s.readX b = some wb) (hc : s.readX c = some wc) (hd : s.readX d = some wd) :
    qrBody a b c d s =
      some (s.writeXs [(a, (quarterRound wa wb wc wd).1), (b, (quarterRound wa wb wc wd).2.1),
        (c, (quarterRound wa wb wc wd).2.2.1), (d, (quarterRound wa wb wc wd).2.2.2)]) := by
  simp [qrBody, ha, hb, hc, hd]

theorem qrBody_isSome_iff (a b c d : WordIdx) (s : State) :
    (∃ t, qrBody a b c d s = some t) ↔ s.qrWritten a b c d := by
  constructor
  · rintro ⟨t, h⟩ i hi
    obtain ⟨wa, wb, wc, wd, ha, hb, hc, hd, -⟩ := qrBody_eq_some h
    simp only [List.mem_cons, List.not_mem_nil, or_false] at hi
    rcases hi with rfl | rfl | rfl | rfl <;> simp_all
  · intro h
    obtain ⟨wa, ha⟩ := Option.isSome_iff_exists.1 (h a (by simp))
    obtain ⟨wb, hb⟩ := Option.isSome_iff_exists.1 (h b (by simp))
    obtain ⟨wc, hc⟩ := Option.isSome_iff_exists.1 (h c (by simp))
    obtain ⟨wd, hd⟩ := Option.isSome_iff_exists.1 (h d (by simp))
    exact ⟨_, qrBody_some ha hb hc hd⟩

/-- How a command other than a rejected QR term or a length error ends: the words it writes, the
memory it leaves, and its frame, once for all twelve. -/
inductive Effect (s : State) : State → Prop where
  /-- A command that writes state words. -/
  | words (ws : List (WordIdx × Word32)) : Effect s (s.writeXs ws).complete
  /-- A command that rewrites all sixteen words. -/
  | all (w : Words) (hw : s.allXWritten) : Effect s (s.setWords w).complete
  /-- EXTRACT. -/
  | out (ws : Vector Word32 8) : Effect s (s.setMem (storeWords s.mem outBase ws.toList)).complete
  /-- RUN: words, permutation and output. -/
  | derived (ws : List (WordIdx × Word32)) (w : Words) (o : Vector Word32 8) :
      Effect s (((s.writeXs ws).setWords w).setMem (storeWords s.mem outBase o.toList)).complete
  /-- An ill-formed QR term. -/
  | illegal (v : Word32) (hv : ∃ a b c d, pairwiseDistinct a b c d = false ∧ v = encode (.qr a b c d)) :
      Effect s (s.signalIllegal v)
  /-- A length error of RUN. -/
  | length (e : LengthError) (he : validate s = some e) :
      Effect s (s.signalError .length e.param e.actual e.required)

theorem State.writeXs_append (s : State) (l l' : List (WordIdx × Word32)) :
    (s.writeXs l).writeXs l' = s.writeXs (l ++ l') := by
  induction l generalizing s with
  | nil => rfl
  | cons p l ih => exact ih _

/-- All that `exec` can answer with a next state. -/
theorem exec_effect {i : Instr} {s t : State} (h : exec i s = .next t) : Effect s t := by
  cases i with
  | nop => cases h; exact .words []
  | loadc => cases h; exact .words _
  | loadk =>
    obtain ⟨u, hu, rfl⟩ := endBody_eq_next h
    obtain ⟨k, -, rfl⟩ := Option.map_eq_some_iff.1 hu
    exact .words _
  | loadn =>
    obtain ⟨u, hu, rfl⟩ := endBody_eq_next h
    obtain ⟨k, -, rfl⟩ := Option.map_eq_some_iff.1 hu
    exact .words _
  | load =>
    obtain ⟨u, hu, rfl⟩ := endBody_eq_next h
    obtain ⟨k, n, -, -, rfl⟩ := loadBody_eq_some hu
    rw [State.placeConstants, State.placeKey, State.placeNonce, State.writeXs_append,
      State.writeXs_append]
    exact .words _
  | qr a b c d =>
    simp only [exec, execQr] at h
    split at h
    · obtain ⟨u, hu, rfl⟩ := endBody_eq_next h
      obtain ⟨wa, wb, wc, wd, -, -, -, -, rfl⟩ := qrBody_eq_some hu
      exact .words _
    · rename_i hd
      cases h
      exact .illegal _ ⟨a, b, c, d, by simpa using hd, rfl⟩
  | colround =>
    obtain ⟨u, hu, rfl⟩ := endBody_eq_next h
    obtain ⟨w, hw, rfl⟩ := onAllWords_eq_some hu
    exact .all _ ((allWords_isSome_iff s).1 ⟨w, hw⟩)
  | rowround =>
    obtain ⟨u, hu, rfl⟩ := endBody_eq_next h
    obtain ⟨w, hw, rfl⟩ := onAllWords_eq_some hu
    exact .all _ ((allWords_isSome_iff s).1 ⟨w, hw⟩)
  | dround =>
    obtain ⟨u, hu, rfl⟩ := endBody_eq_next h
    obtain ⟨w, hw, rfl⟩ := onAllWords_eq_some hu
    exact .all _ ((allWords_isSome_iff s).1 ⟨w, hw⟩)
  | permute =>
    obtain ⟨u, hu, rfl⟩ := endBody_eq_next h
    obtain ⟨w, hw, rfl⟩ := onAllWords_eq_some hu
    exact .all _ ((allWords_isSome_iff s).1 ⟨w, hw⟩)
  | extract =>
    obtain ⟨u, hu, rfl⟩ := endBody_eq_next h
    obtain ⟨ws, -, rfl⟩ := extractBody_eq_some hu
    exact .out _
  | run =>
    simp only [exec, execRun] at h
    split at h
    · rename_i e he
      cases h
      exact .length e he
    · obtain ⟨u, hu, rfl⟩ := endBody_eq_next h
      obtain ⟨v, hv, hu⟩ := Option.bind_eq_some_iff.1 hu
      obtain ⟨l, hl, hv⟩ := Option.bind_eq_some_iff.1 hv
      obtain ⟨k, n, -, -, rfl⟩ := loadBody_eq_some hl
      obtain ⟨w, -, rfl⟩ := onAllWords_eq_some hv
      obtain ⟨ws, -, rfl⟩ := extractBody_eq_some hu
      rw [State.placeConstants, State.placeKey, State.placeNonce, State.writeXs_append,
        State.writeXs_append, State.setWords_mem, State.writeXs_mem]
      exact .derived _ _ _

/-- `exec` refuses nothing, and its only fault is a cell holding `⊥`. -/
theorem exec_outcome (i : Instr) (s : State) :
    (∃ t, exec i s = .next t) ∨ exec i s = .fault .unwritten := by
  have key : ∀ o, (∃ t, endBody o = .next t) ∨ endBody o = .fault .unwritten := fun o => by
    cases o with
    | none => exact .inr rfl
    | some u => exact .inl ⟨_, rfl⟩
  cases i with
  | qr a b c d =>
    simp only [exec, execQr]
    split
    · exact key _
    · exact .inl ⟨_, rfl⟩
  | run =>
    simp only [exec, execRun]
    split
    · exact .inl ⟨_, rfl⟩
    · exact key _
  | nop => exact .inl ⟨_, rfl⟩
  | loadc => exact .inl ⟨_, rfl⟩
  | loadk => exact key _
  | loadn => exact key _
  | load => exact key _
  | colround => exact key _
  | rowround => exact key _
  | dround => exact key _
  | permute => exact key _
  | extract => exact key _

end Sys2Proof.Machine
end

