-- ==== Sys2Proof/Laws/Decode.lean ====
section
/-! SUPPORT. The fields of a word as numbers and the fields of an encoded word: what the decoder and the
encoder agree on, bit field by bit field. -/

namespace Sys2Proof

/-! ### Fields as numbers -/

theorem opcodeField_toNat (v : Word32) : (opcodeField v).toNat = v.toNat % 256 := by
  simp [opcodeField]

theorem reservedN_toNat (v : Word32) : (reservedN v).toNat = v.toNat / 256 := by
  simp only [reservedN, BitVec.extractLsb'_toNat, Nat.shiftRight_eq_div_pow]
  omega

theorem reservedQ_toNat (v : Word32) : (reservedQ v).toNat = v.toNat / 16777216 := by
  simp only [reservedQ, BitVec.extractLsb'_toNat, Nat.shiftRight_eq_div_pow]
  omega

theorem fieldA_val (v : Word32) : (fieldA v).val = v.toNat / 256 % 16 := by
  simp [fieldA, Nat.shiftRight_eq_div_pow]

theorem fieldB_val (v : Word32) : (fieldB v).val = v.toNat / 4096 % 16 := by
  simp [fieldB, Nat.shiftRight_eq_div_pow]

theorem fieldC_val (v : Word32) : (fieldC v).val = v.toNat / 65536 % 16 := by
  simp [fieldC, Nat.shiftRight_eq_div_pow]

theorem fieldD_val (v : Word32) : (fieldD v).val = v.toNat / 1048576 % 16 := by
  simp [fieldD, Nat.shiftRight_eq_div_pow]

/-! ### The QR word -/

/-- R60's number for a QR word. -/
theorem qrWord_toNat (a b c d : WordIdx) : (qrWord a b c d).toNat =
    0x08 + a.val * 2 ^ 8 + b.val * 2 ^ 12 + c.val * 2 ^ 16 + d.val * 2 ^ 20 := by
  have ha := a.isLt; have hb := b.isLt; have hc := c.isLt; have hd := d.isLt
  have e8 : ∀ (x y i : Nat), x < 2 ^ i → x ||| y <<< i = x + y * 2 ^ i := fun x y i h => by
    rw [Nat.lor_comm, ← Nat.shiftLeft_add_eq_or_of_lt h, Nat.shiftLeft_eq, Nat.add_comm]
  have m : ∀ (i : WordIdx) (lo : Nat), lo ≤ 20 → (placed i lo).toNat = i.val <<< lo := fun i lo h => by
    have hi := i.isLt
    have : i.val * 2 ^ lo < 2 ^ 32 := by
      calc i.val * 2 ^ lo ≤ 15 * 2 ^ 20 :=
            Nat.mul_le_mul (by omega) (Nat.pow_le_pow_right (by omega) h)
        _ < 2 ^ 32 := by norm_num
    simp only [placed, BitVec.toNat_shiftLeft, BitVec.toNat_ofNat, Nat.shiftLeft_eq]
    rw [Nat.mod_eq_of_lt (by omega : i.val < 2 ^ 32), Nat.mod_eq_of_lt this]
  simp only [qrWord, BitVec.toNat_or, m _ _ (by omega : 8 ≤ 20), m _ _ (by omega : 12 ≤ 20),
    m _ _ (by omega : 16 ≤ 20), m _ _ (by omega : 20 ≤ 20)]
  rw [show (qrOpcode.setWidth 32).toNat = 0x08 by decide]
  rw [e8 _ _ 8 (by omega), e8 _ _ 12 (by omega), e8 _ _ 16 (by omega), e8 _ _ 20 (by omega)]

theorem opcodeField_qrWord (a b c d : WordIdx) : opcodeField (qrWord a b c d) = qrOpcode := by
  apply BitVec.eq_of_toNat_eq
  rw [opcodeField_toNat, qrWord_toNat]
  simp only [qrOpcode, BitVec.toNat_ofNat]
  omega

theorem reservedQ_qrWord (a b c d : WordIdx) : reservedQ (qrWord a b c d) = 0#8 := by
  have ha := a.isLt; have hb := b.isLt; have hc := c.isLt; have hd := d.isLt
  apply BitVec.eq_of_toNat_eq
  rw [reservedQ_toNat, qrWord_toNat]
  simp only [BitVec.toNat_ofNat]
  omega

theorem fields_qrWord (a b c d : WordIdx) : fieldA (qrWord a b c d) = a ∧
    fieldB (qrWord a b c d) = b ∧ fieldC (qrWord a b c d) = c ∧ fieldD (qrWord a b c d) = d := by
  have ha := a.isLt; have hb := b.isLt; have hc := c.isLt; have hd := d.isLt
  refine ⟨Fin.ext ?_, Fin.ext ?_, Fin.ext ?_, Fin.ext ?_⟩
  · rw [fieldA_val, qrWord_toNat]; omega
  · rw [fieldB_val, qrWord_toNat]; omega
  · rw [fieldC_val, qrWord_toNat]; omega
  · rw [fieldD_val, qrWord_toNat]; omega

/-- A word with the QR opcode and no reserved bit is the QR word of its own fields. -/
theorem qrWord_fields {v : Word32} (ho : opcodeField v = qrOpcode) (hr : reservedQ v = 0#8) :
    qrWord (fieldA v) (fieldB v) (fieldC v) (fieldD v) = v := by
  apply BitVec.eq_of_toNat_eq
  rw [qrWord_toNat, fieldA_val, fieldB_val, fieldC_val, fieldD_val]
  have h1 := congrArg BitVec.toNat ho
  have h2 := congrArg BitVec.toNat hr
  rw [opcodeField_toNat] at h1
  rw [reservedQ_toNat] at h2
  simp only [qrOpcode, BitVec.toNat_ofNat] at h1 h2
  omega

/-- A word without reserved bits of format N is the word of its opcode. -/
theorem plainWord_opcodeField {v : Word32} (hr : reservedN v = 0#24) : plainWord (opcodeField v) = v := by
  have h := congrArg BitVec.toNat hr
  rw [reservedN_toNat] at h
  apply BitVec.eq_of_toNat_eq
  have hv := v.isLt
  simp only [plainWord, BitVec.toNat_setWidth, opcodeField_toNat, BitVec.toNat_ofNat] at h ⊢
  omega

theorem pairwiseDistinct_iff (a b c d : WordIdx) :
    pairwiseDistinct a b c d = true ↔ [a, b, c, d].Nodup := by
  simp [pairwiseDistinct]
  tauto

/-! ### The two branches of the decoder -/

/-- All that decoding answers with a command: a QR with its fields, or a plain row with no reserved bit. -/
theorem decode_eq_ok {v : Word32} {i : Instr} (h : decode v = .ok i) :
    (opcodeField v = qrOpcode ∧ reservedQ v = 0#8 ∧
      pairwiseDistinct (fieldA v) (fieldB v) (fieldC v) (fieldD v) = true ∧
      i = .qr (fieldA v) (fieldB v) (fieldC v) (fieldD v)) ∨
    (opcodeField v ≠ qrOpcode ∧ reservedN v = 0#24 ∧
      plainCommands.lookup (opcodeField v) = some i) := by
  unfold decode at h
  split at h
  · rename_i ho
    unfold decodeQr at h
    split at h
    · cases h
    · rename_i hr
      split at h
      · rename_i hd
        cases h
        exact .inl ⟨ho, by simpa using hr, hd, rfl⟩
      · cases h
  · rename_i ho
    unfold decodePlain at h
    split at h
    · cases h
    · rename_i j hj
      split at h
      · cases h
      · rename_i hr
        cases h
        exact .inr ⟨ho, by simpa using hr, hj⟩

/-- The rows of the map that a lookup finds. -/
theorem plainCommands_lookup {o : BitVec 8} {i : Instr} (h : plainCommands.lookup o = some i) :
    i.wellFormed = true ∧ encode i = plainWord o := by
  simp only [plainCommands, List.lookup_cons] at h
  repeat' split at h
  all_goals first
    | (cases h; rename_i he; simp only [beq_iff_eq] at he; subst he; exact ⟨rfl, rfl⟩)
    | cases h

end Sys2Proof
end

