-- ==== Sys2Proof/Laws/Permutation.lean ====
section
/-! SUPPORT. The permutation family: what a quarter-round on a group of words changes, what a list of
disjoint groups changes, and what the round commands and QR answer. -/

namespace Sys2Proof.Machine

/-! ### The word operations -/

/-- `rotl32` is the library's rotation. -/
theorem rotl32_eq_rotateLeft (v : Word32) {n : Nat} (h : n < 32) : rotl32 v n = v.rotateLeft n := by
  rw [BitVec.rotateLeft_eq_rotateLeftAux_of_lt h]
  rfl

theorem xor_right_cancel {a b c : Word32} (h : a ^^^ c = b ^^^ c) : a = b := by
  have := congrArg (· ^^^ c) h
  simpa [BitVec.xor_assoc] using this

/-- The quarter-round can be undone step by step: its result determines its four words. -/
theorem quarterRound_injective {a b c d a' b' c' d' : Word32}
    (h : quarterRound a b c d = quarterRound a' b' c' d') : a = a' ∧ b = b' ∧ c = c' ∧ d = d' := by
  simp only [quarterRound, Prod.mk.injEq] at h
  obtain ⟨h1, h2, h3, h4⟩ := h
  rw [h4, h3] at h1
  have ha := xor_right_cancel h1
  subst ha
  rw [h3, h2] at h4
  have hd := xor_right_cancel h4
  subst hd
  rw [h2] at h3
  exact ⟨rfl, xor_right_cancel h2, xor_right_cancel h3, rfl⟩

/-! ### One group -/

/-- The positions of a group. -/
def groupWords (g : Group) : List WordIdx := [g.1, g.2.1, g.2.2.1, g.2.2.2]

/-- The quarter-round of the words a group names. -/
def groupMix (w : Words) (g : Group) : Word32 × Word32 × Word32 × Word32 :=
  quarterRound w[g.1] w[g.2.1] w[g.2.2.1] w[g.2.2.2]

/-- The words a group names are the four given. -/
def HoldsAt (w : Words) (g : Group) (r : Word32 × Word32 × Word32 × Word32) : Prop :=
  w[g.1] = r.1 ∧ w[g.2.1] = r.2.1 ∧ w[g.2.2.1] = r.2.2.1 ∧ w[g.2.2.2] = r.2.2.2

/-- A quarter-round leaves every word outside its group alone. -/
theorem applyGroup_of_notMem (w : Words) (g : Group) (j : WordIdx) (h : j ∉ groupWords g) :
    (applyGroup w g)[j] = w[j] := by
  simp only [groupWords, List.mem_cons, List.not_mem_nil, or_false, not_or] at h
  obtain ⟨h1, h2, h3, h4⟩ := h
  simp only [applyGroup, Fin.getElem_fin, Vector.getElem_set, Fin.val_inj, if_neg (Ne.symm h1),
    if_neg (Ne.symm h2), if_neg (Ne.symm h3), if_neg (Ne.symm h4)]

/-- A quarter-round on distinct words gives its group the mixed words. -/
theorem applyGroup_holdsAt (w : Words) (g : Group) (h : (groupWords g).Nodup) :
    HoldsAt (applyGroup w g) g (groupMix w g) := by
  obtain ⟨a, b, c, d⟩ := g
  simp only [groupWords, List.nodup_cons, List.mem_cons, List.not_mem_nil, or_false, not_or] at h
  obtain ⟨⟨h1, h2, h3⟩, ⟨h4, h5⟩, h6, -⟩ := h
  simp only [HoldsAt, groupMix, applyGroup, Fin.getElem_fin, Vector.getElem_set, Fin.val_inj,
    if_neg (Ne.symm h1), if_neg (Ne.symm h2), if_neg (Ne.symm h3), if_neg (Ne.symm h4),
    if_neg (Ne.symm h5), if_neg (Ne.symm h6), if_true, and_self]

theorem HoldsAt.congr {w w' : Words} {g : Group} {r : Word32 × Word32 × Word32 × Word32}
    (h : ∀ j ∈ groupWords g, w'[j] = w[j]) (hh : HoldsAt w g r) : HoldsAt w' g r := by
  obtain ⟨h1, h2, h3, h4⟩ := hh
  exact ⟨(h _ (by simp [groupWords])).trans h1, (h _ (by simp [groupWords])).trans h2,
    (h _ (by simp [groupWords])).trans h3, (h _ (by simp [groupWords])).trans h4⟩

theorem groupMix_congr {w w' : Words} {g : Group} (h : ∀ j ∈ groupWords g, w'[j] = w[j]) :
    groupMix w' g = groupMix w g := by
  unfold groupMix
  rw [h g.1 (by simp [groupWords]), h g.2.1 (by simp [groupWords]), h g.2.2.1 (by simp [groupWords]),
    h g.2.2.2 (by simp [groupWords])]

/-- Equal mixes of a group come from equal words of it. -/
theorem words_eq_of_groupMix_eq {w w' : Words} {g : Group} (h : groupMix w g = groupMix w' g) :
    ∀ j ∈ groupWords g, w[j] = w'[j] := by
  obtain ⟨e1, e2, e3, e4⟩ := quarterRound_injective h
  intro j hj
  simp only [groupWords, List.mem_cons, List.not_mem_nil, or_false] at hj
  rcases hj with rfl | rfl | rfl | rfl <;> assumption

/-! ### Disjoint groups -/

/-- What R82 says of a phase's groups: each has four distinct positions, no two share one, and together
they cover all sixteen words. -/
structure IsPhase (gs : List Group) : Prop where
  distinct : ∀ g ∈ gs, (groupWords g).Nodup
  disjoint : gs.Pairwise fun g g' => ∀ j ∈ groupWords g, j ∉ groupWords g'
  covers : ∀ j : WordIdx, ∃ g ∈ gs, j ∈ groupWords g

theorem colGroups_isPhase : IsPhase colGroups where
  distinct := by simp [colGroups, groupWords]
  disjoint := by simp [colGroups, groupWords]
  covers := by
    have : ∀ j : WordIdx, (colGroups.any fun g => decide (j ∈ groupWords g)) = true := by decide
    simpa using this

theorem rowGroups_isPhase : IsPhase rowGroups where
  distinct := by simp [rowGroups, groupWords]
  disjoint := by simp [rowGroups, groupWords]
  covers := by
    have : ∀ j : WordIdx, (rowGroups.any fun g => decide (j ∈ groupWords g)) = true := by decide
    simpa using this

/-- A list of quarter-rounds leaves every word alone that no group names. -/
theorem foldl_applyGroup_of_notMem (gs : List Group) (w : Words) (j : WordIdx)
    (h : ∀ g ∈ gs, j ∉ groupWords g) : (gs.foldl applyGroup w)[j] = w[j] := by
  induction gs generalizing w with
  | nil => rfl
  | cons g gs ih =>
    rw [List.foldl_cons, ih _ fun g' hg => h g' (List.mem_cons_of_mem _ hg)]
    exact applyGroup_of_notMem _ _ _ (h g List.mem_cons_self)

/-- Quarter-rounds on disjoint groups give each group the mix of its words before all of them. -/
theorem foldl_applyGroup_holdsAt (gs : List Group) (w : Words)
    (hn : ∀ g ∈ gs, (groupWords g).Nodup)
    (hd : gs.Pairwise fun g g' => ∀ j ∈ groupWords g, j ∉ groupWords g') :
    ∀ g ∈ gs, HoldsAt (gs.foldl applyGroup w) g (groupMix w g) := by
  induction gs generalizing w with
  | nil => intro g hg; cases hg
  | cons g0 gs ih =>
    rw [List.pairwise_cons] at hd
    intro g hg
    rw [List.foldl_cons]
    rcases List.mem_cons.1 hg with rfl | hg
    · refine HoldsAt.congr (fun j hj => ?_) (applyGroup_holdsAt w g (hn g List.mem_cons_self))
      exact foldl_applyGroup_of_notMem _ _ _ fun g' hg' => hd.1 g' hg' j hj
    · have := ih (applyGroup w g0) (fun g hg => hn g (List.mem_cons_of_mem _ hg)) hd.2 g hg
      rwa [groupMix_congr] at this
      intro j hj
      exact applyGroup_of_notMem _ _ _ fun h => hd.1 g hg j h hj

/-- Words that hold the same values at the groups of a phase are equal. -/
theorem IsPhase.words_eq {gs : List Group} (hp : IsPhase gs) {w w' : Words}
    (f : Group → Word32 × Word32 × Word32 × Word32) (h : ∀ g ∈ gs, HoldsAt w g (f g))
    (h' : ∀ g ∈ gs, HoldsAt w' g (f g)) : w = w' := by
  ext1 i hi
  obtain ⟨g, hg, hj⟩ := hp.covers ⟨i, hi⟩
  have key : ∀ j ∈ groupWords g, w[j] = w'[j] := by
    obtain ⟨a1, a2, a3, a4⟩ := h g hg
    obtain ⟨b1, b2, b3, b4⟩ := h' g hg
    intro j hj
    simp only [groupWords, List.mem_cons, List.not_mem_nil, or_false] at hj
    rcases hj with rfl | rfl | rfl | rfl
    · exact a1.trans b1.symm
    · exact a2.trans b2.symm
    · exact a3.trans b3.symm
    · exact a4.trans b4.symm
  exact key _ hj

/-! ### The round commands and QR -/

theorem State.setWords_complete_setWords (s : State) (w w' : Words) :
    (s.setWords w).complete.setWords w' = (s.setWords w').complete := rfl

theorem State.complete_complete (s : State) : s.complete.complete = s.complete := rfl

/-- A round command on sixteen written words. -/
theorem endBody_onAllWords_next {s : State} {w : Words} (h : s.allWords = some w) (f : Words → Words) :
    endBody (onAllWords f s) = .next (s.setWords (f w)).complete := by
  rw [onAllWords_some h]
  rfl

/-- A round command where a word holds `⊥` (41_permutation.md R87). -/
theorem endBody_onAllWords_fault {s : State} (h : ¬ s.allXWritten) (f : Words → Words) :
    endBody (onAllWords f s) = .fault .unwritten := by
  rw [onAllWords_none h]
  rfl

theorem execColround_eq (s : State) : exec .colround s = endBody (onAllWords colPhase s) := rfl

theorem execColround_next {s : State} {w : Words} (h : s.allWords = some w) :
    exec .colround s = .next (s.setWords (colPhase w)).complete := by
  rw [execColround_eq, endBody_onAllWords_next h]

theorem execColround_fault {s : State} (h : ¬ s.allXWritten) : exec .colround s = .fault .unwritten := by
  rw [execColround_eq, endBody_onAllWords_fault h]

theorem execRowround_eq (s : State) : exec .rowround s = endBody (onAllWords rowPhase s) := rfl

theorem execRowround_next {s : State} {w : Words} (h : s.allWords = some w) :
    exec .rowround s = .next (s.setWords (rowPhase w)).complete := by
  rw [execRowround_eq, endBody_onAllWords_next h]

theorem execRowround_fault {s : State} (h : ¬ s.allXWritten) : exec .rowround s = .fault .unwritten := by
  rw [execRowround_eq, endBody_onAllWords_fault h]

theorem execDround_eq (s : State) : exec .dround s = endBody (onAllWords doubleRound s) := rfl

theorem execDround_next {s : State} {w : Words} (h : s.allWords = some w) :
    exec .dround s = .next (s.setWords (doubleRound w)).complete := by
  rw [execDround_eq, endBody_onAllWords_next h]

theorem execDround_fault {s : State} (h : ¬ s.allXWritten) : exec .dround s = .fault .unwritten := by
  rw [execDround_eq, endBody_onAllWords_fault h]

theorem execPermute_eq (s : State) : exec .permute s = endBody (onAllWords permuteWords s) := rfl

theorem execPermute_next {s : State} {w : Words} (h : s.allWords = some w) :
    exec .permute s = .next (s.setWords (permuteWords w)).complete := by
  rw [execPermute_eq, endBody_onAllWords_next h]

theorem execPermute_fault {s : State} (h : ¬ s.allXWritten) : exec .permute s = .fault .unwritten := by
  rw [execPermute_eq, endBody_onAllWords_fault h]

/-- A QR of distinct indices is its body. -/
theorem execQr_eq {a b c d : WordIdx} (h : [a, b, c, d].Nodup) (s : State) :
    exec (.qr a b c d) s = endBody (qrBody a b c d s) := by
  have := (pairwiseDistinct_iff a b c d).2 h
  simp [exec, execQr, this]

theorem execQr_fault {s : State} {a b c d : WordIdx} (hn : [a, b, c, d].Nodup)
    (h : ¬ s.qrWritten a b c d) : exec (.qr a b c d) s = .fault .unwritten := by
  rw [execQr_eq hn, option_eq_none_of_not_exists (mt (qrBody_isSome_iff a b c d s).1 h)]
  rfl

/-- A QR leaves every word outside its group alone. -/
theorem execQr_readX_of_notMem {s t : State} {a b c d : WordIdx} (hn : [a, b, c, d].Nodup)
    (h : exec (.qr a b c d) s = .next t) (j : WordIdx) (hj : j ∉ [a, b, c, d]) :
    t.readX j = s.readX j := by
  rw [execQr_eq hn] at h
  obtain ⟨u, hu, rfl⟩ := endBody_eq_next h
  obtain ⟨wa, wb, wc, wd, -, -, -, -, rfl⟩ := qrBody_eq_some hu
  exact State.readX_writeXs_of_notMem _ _ _ hj

/-- On sixteen written words a QR is one `applyGroup`. -/
theorem execQr_next_of_allWords {s : State} {w : Words} (hw : s.allWords = some w) {a b c d : WordIdx}
    (hn : [a, b, c, d].Nodup) :
    exec (.qr a b c d) s = .next (s.setWords (applyGroup w (a, b, c, d))).complete := by
  have hr := (allWords_eq_some_iff s w).1 hw
  rw [execQr_eq hn, qrBody_some (hr a) (hr b) (hr c) (hr d), endBody_some]
  congr 2
  obtain ⟨e1, e2, e3, e4⟩ := applyGroup_holdsAt w (a, b, c, d) hn
  have hx : (s.writeXs [(a, (groupMix w (a, b, c, d)).1), (b, (groupMix w (a, b, c, d)).2.1),
      (c, (groupMix w (a, b, c, d)).2.2.1), (d, (groupMix w (a, b, c, d)).2.2.2)]).x =
      (s.setWords (applyGroup w (a, b, c, d))).x := by
    apply State.x_ext (s := s.setWords (applyGroup w (a, b, c, d)))
    intro j
    rw [State.readX_setWords]
    by_cases hj : j ∈ [a, b, c, d]
    · have : ∃ v, (j, v) ∈ ([(a, (groupMix w (a, b, c, d)).1), (b, (groupMix w (a, b, c, d)).2.1),
          (c, (groupMix w (a, b, c, d)).2.2.1), (d, (groupMix w (a, b, c, d)).2.2.2)] :
          List (WordIdx × Word32)) ∧ (applyGroup w (a, b, c, d))[j] = v := by
        simp only [List.mem_cons, List.not_mem_nil, or_false] at hj
        rcases hj with rfl | rfl | rfl | rfl
        · exact ⟨_, .head _, e1⟩
        · exact ⟨_, .tail _ (.head _), e2⟩
        · exact ⟨_, .tail _ (.tail _ (.head _)), e3⟩
        · exact ⟨_, .tail _ (.tail _ (.tail _ (.head _))), e4⟩
      obtain ⟨v, hv, e⟩ := this
      rw [e]
      exact State.readX_writeXs_of_mem _ _ _ _ hn hv
    · rw [applyGroup_of_notMem _ _ _ hj, State.readX_writeXs_of_notMem _ _ _ hj, hr]
  exact congrArg (fun x => ({ s with x := x } : State)) hx

end Sys2Proof.Machine
end

