-- ==== Sys2Proof/Laws/Extract.lean ====
section
/-! SUPPORT. What EXTRACT and RUN answer, and what they read. -/

namespace Sys2Proof.Machine

theorem execExtract_next {s : State} {o : Vector Word32 8} (h : s.outWords = some o) :
    exec .extract s = .next (s.setMem (storeWords s.mem outBase o.toList)).complete := by
  simp [exec, execExtract, extractBody, h]

theorem execExtract_fault {s : State} (h : ¬ s.outXWritten) : exec .extract s = .fault .unwritten := by
  simp [exec, execExtract, extractBody, option_eq_none_of_not_exists (mt (outWords_isSome_iff s).1 h)]

theorem validate_eq_none_iff (s : State) : validate s = none ↔ s.lengthsOk := by
  unfold validate State.lengthsOk
  split
  · simp_all
  · split
    · simp_all
    · split <;> simp_all

/-- RUN with a wrong length signals it (42_extract_run.md R98; 60_exceptions.md R116). -/
theorem execRun_length {s : State} {e : LengthError} (h : validate s = some e) :
    exec .run s = .next (s.signalError .length e.param e.actual e.required) := by
  simp [exec, execRun, h]

/-- RUN with the right lengths is its three bodies (R98). -/
theorem execRun_eq {s : State} (h : s.lengthsOk) : exec .run s = endBody (deriveBody s) := by
  simp [exec, execRun, (validate_eq_none_iff s).2 h]

theorem execLoad_eq (s : State) : exec .load s = endBody (loadBody s) := rfl

/-- A fully written state has its eight output words, word `j` of the map being that state word. -/
theorem outWords_setWords (s : State) (w : Words) :
    (s.setWords w).outWords = some (Vector.ofFn fun j => w[opos[j]]) :=
  collect_eq_some_iff.2 fun j => by rw [State.readX_setWords]; simp

/-- After LOAD every state word holds a value (40_codec_loader.md R73). -/
theorem loadBody_allXWritten {s t : State} (h : loadBody s = some t) : t.allXWritten := by
  obtain ⟨k, n, -, -, rfl⟩ := loadBody_eq_some h
  intro i
  have hk : (kpos.zip k.toList).map Prod.fst = kpos := by rw [List.map_fst_zip]; simp [kpos]
  have hn : (npos.zip n.toList).map Prod.fst = npos := by rw [List.map_fst_zip]; simp [npos]
  have written : ∀ (u : State) (ws : List (WordIdx × Word32)), (ws.map Prod.fst).Nodup →
      i ∈ ws.map Prod.fst → ((u.writeXs ws).readX i).isSome = true := by
    intro u ws hd hi
    obtain ⟨⟨j, v⟩, hv, rfl⟩ := List.mem_map.1 hi
    rw [State.readX_writeXs_of_mem _ _ _ _ hd hv]
    rfl
  have cover : ∀ i : WordIdx, i ∈ (cpos.zip cval).map Prod.fst ∨ i ∈ kpos ∨ i ∈ npos := by decide
  rcases cover i with hi | hi | hi
  · exact State.readX_writeXs_isSome _ _ _ (State.readX_writeXs_isSome _ _ _
      (written _ _ (by decide) hi))
  · exact State.readX_writeXs_isSome _ _ _ (written _ _ (by rw [hk]; decide) (by rw [hk]; exact hi))
  · exact written _ _ (by rw [hn]; decide) (by rw [hn]; exact hi)

/-- The state that RUN's three bodies leave. -/
def derived (t : State) (w : Words) : State :=
  (t.setWords (permuteWords w)).setMem
    (storeWords t.mem outBase (Vector.ofFn fun j => (permuteWords w)[opos[j]]).toList)

/-- RUN's three bodies end in one state, and can only stop in LOAD (R98, R99). -/
theorem deriveBody_some {s t : State} (h : loadBody s = some t) :
    ∃ w, t.allWords = some w ∧ deriveBody s = some (derived t w) := by
  obtain ⟨w, hw⟩ := (allWords_isSome_iff t).2 (loadBody_allXWritten h)
  refine ⟨w, hw, ?_⟩
  simp only [deriveBody, h, Option.bind_some, onAllWords_some hw, extractBody, outWords_setWords,
    Option.map_some]
  rfl

theorem deriveBody_none {s : State} (h : loadBody s = none) : deriveBody s = none := by
  simp [deriveBody, h]

end Sys2Proof.Machine
end

