-- ==== Sys2Proof/Laws/PerInstr.lean ====
section
/-! SUPPORT. The per-instruction family `Encoding`: a command's word selects the command's own row of the
opcode map (30_encoding.md R54), whatever its operands. One lemma per constructor. -/

namespace Sys2Proof.Laws

/-- The word of `i` matches the row of `i`. -/
def Encoding.Statement (i : Instr) : Prop := encode i &&& i.mask = i.matchWord

theorem Encoding.nop : Encoding.Statement .nop := by
  unfold Encoding.Statement
  decide

theorem Encoding.loadc : Encoding.Statement .loadc := by
  unfold Encoding.Statement
  decide

theorem Encoding.loadk : Encoding.Statement .loadk := by
  unfold Encoding.Statement
  decide

theorem Encoding.loadn : Encoding.Statement .loadn := by
  unfold Encoding.Statement
  decide

theorem Encoding.load : Encoding.Statement .load := by
  unfold Encoding.Statement
  decide

/-- The mask of QR keeps no operand bit: the four fields lie in bits 23:8 (R52). -/
theorem Encoding.qr (a b c d : WordIdx) : Encoding.Statement (.qr a b c d) := by
  have out : ∀ i : WordIdx, ∀ k : Fin 4, placed i (8 + 4 * k.val) &&& 0xFF0000FF#32 = 0#32 := by
    decide
  have h0 := out a 0
  have h1 := out b 1
  have h2 := out c 2
  have h3 := out d 3
  simp only [Encoding.Statement, encode, qrWord, Instr.mask, Instr.matchWord, BitVec.and_or_distrib_right]
  rw [show placed a 8 &&& 0xFF0000FF#32 = 0#32 from h0, show placed b 12 &&& 0xFF0000FF#32 = 0#32 from h1,
    show placed c 16 &&& 0xFF0000FF#32 = 0#32 from h2, show placed d 20 &&& 0xFF0000FF#32 = 0#32 from h3]
  decide

theorem Encoding.colround : Encoding.Statement .colround := by
  unfold Encoding.Statement
  decide

theorem Encoding.rowround : Encoding.Statement .rowround := by
  unfold Encoding.Statement
  decide

theorem Encoding.dround : Encoding.Statement .dround := by
  unfold Encoding.Statement
  decide

theorem Encoding.permute : Encoding.Statement .permute := by
  unfold Encoding.Statement
  decide

theorem Encoding.extract : Encoding.Statement .extract := by
  unfold Encoding.Statement
  decide

theorem Encoding.run : Encoding.Statement .run := by
  unfold Encoding.Statement
  decide

end Sys2Proof.Laws
end

