-- ==== Sys2Proof/Laws/Platform.lean ====
section
/-! SUPPORT. What a move on one engine of a platform does to the others, and where a bus address goes. -/

namespace Sys2Proof.Machine

/-- All that a move on engine `k` can do: nothing where there is no such engine, else `f` on it alone. -/
theorem onEngine_eq_next {p p' : Platform} {k : Nat} {f : State → Result}
    (h : p.onEngine k f = .next p') :
    (p[k]? = none ∧ p' = p) ∨
      ∃ m t, p[k]? = some m ∧ f m.engine = .next t ∧ p' = p.set k { m with engine := t } := by
  unfold Platform.onEngine at h
  split at h
  · rename_i hk
    cases h; exact .inl ⟨hk, rfl⟩
  · rename_i m hk
    split at h
    · rename_i t ht
      cases h; exact .inr ⟨m, t, hk, ht, rfl⟩
    · cases h
    · cases h

/-- A move on engine `k` moves no window and changes no other engine. -/
theorem onEngine_frame {p p' : Platform} {k : Nat} {f : State → Result}
    (h : p.onEngine k f = .next p') :
    p'.map Mounted.base = p.map Mounted.base ∧ ∀ j, j ≠ k → p'[j]? = p[j]? := by
  rcases onEngine_eq_next h with ⟨-, rfl⟩ | ⟨m, t, hk, -, rfl⟩
  · exact ⟨rfl, fun _ _ => rfl⟩
  · refine ⟨?_, fun j hj => List.getElem?_set_ne (Ne.symm hj)⟩
    rw [List.map_set]
    apply List.ext_getElem?
    intro i
    rw [List.getElem?_set]
    split
    · subst_vars
      split
      · rw [List.getElem?_map, hk]; rfl
      · rename_i hl
        rw [List.getElem?_eq_none (by omega)]
    · rfl

/-- What a well-formed platform is, clause by clause. -/
theorem platform_wf_iff (p : Platform) :
    p.wf = true ↔ p ≠ [] ∧ (∀ b ∈ p.map Mounted.base, legalBase b = true) ∧
      (p.map Mounted.base).Nodup := by
  simp [Platform.wf, and_assoc]

/-- A platform is well-formed by its windows alone. -/
theorem platform_wf_of_bases {p p' : Platform} (h : p'.map Mounted.base = p.map Mounted.base)
    (hp : p.wf = true) : p'.wf = true := by
  rw [platform_wf_iff] at hp ⊢
  refine ⟨?_, h ▸ hp.2.1, h ▸ hp.2.2⟩
  rintro rfl
  exact hp.1 (List.map_eq_nil_iff.1 h.symm)

/-- The engine a bus address is routed to has a window that holds it. -/
theorem route_eq_some {p : Platform} {a : Nat} {r : Nat × Nat} (h : p.route a = some r) :
    ∃ m, p[r.1]? = some m ∧ m.offset a = some r.2 := by
  induction p generalizing r with
  | nil => cases h
  | cons m p ih =>
    rw [Platform.route] at h
    split at h
    · rename_i o ho
      cases h
      exact ⟨m, rfl, ho⟩
    · obtain ⟨r', hr', rfl⟩ := Option.map_eq_some_iff.1 h
      obtain ⟨m', h1, h2⟩ := ih hr'
      exact ⟨m', by simpa using h1, h2⟩

/-- Where windows are legal and apart, BASE + offset is routed to the engine mounted at BASE. -/
theorem route_base_add {p : Platform} (hl : ∀ b ∈ p.map Mounted.base, legalBase b = true)
    (hn : (p.map Mounted.base).Nodup) {k o : Nat} {m : Mounted} (hk : p[k]? = some m)
    (ho : o < 256) : p.route (m.base + o) = some (k, o) := by
  induction p generalizing k with
  | nil => cases hk
  | cons m0 p ih =>
    rw [List.map_cons, List.nodup_cons] at hn
    cases k with
    | zero =>
      cases hk
      have : m.offset (m.base + o) = some o := by
        rw [Mounted.offset, if_pos ⟨by omega, by simp only [Config.windowSize]; omega⟩,
          Nat.add_sub_cancel_left]
      rw [Platform.route, this]
    | succ k =>
      have hk' : p[k]? = some m := by simpa using hk
      have hm : m ∈ p := List.mem_of_getElem? hk'
      have hne : m0.base ≠ m.base := fun h => hn.1 (h ▸ List.mem_map_of_mem hm)
      have l0 := hl m0.base (by simp)
      have l1 := hl m.base (List.mem_map_of_mem (List.mem_cons_of_mem _ hm))
      simp only [legalBase, Config.windowSize, beq_iff_eq] at l0 l1
      have : m0.offset (m.base + o) = none := by
        rw [Mounted.offset, if_neg]
        simp only [Config.windowSize]
        omega
      rw [Platform.route, this,
        ih (fun b hb => hl b (by rw [List.map_cons]; exact List.mem_cons_of_mem _ hb)) hn.2 hk']
      rfl

end Sys2Proof.Machine
end

