-- ==== Sys2Proof/Laws/Step.lean ====
section
/-! SUPPORT. All that a step can do, agent by agent. -/

namespace Sys2Proof.Machine

/-! ### The engine -/

/-- An engine step rejects its latched word or runs its command. -/
theorem engineStep_eq_next {s t : State} (h : engineStep s = .next t) :
    ∃ v, s.cmdLatch = some v ∧
      ((∃ e, decode v = .error e) ∧ t = s.signalIllegal v ∨ ∃ i, decode v = .ok i ∧ exec i s = .next t) := by
  unfold engineStep at h
  split at h
  · cases h
  · rename_i v hv
    split at h
    · rename_i e he
      cases h
      exact ⟨v, hv, .inl ⟨⟨e, he⟩, rfl⟩⟩
    · rename_i i hi
      exact ⟨v, hv, .inr ⟨i, hi, h⟩⟩

theorem engineStep_outcome (s : State) :
    (∃ t, engineStep s = .next t) ∨ engineStep s = .fault .unwritten := by
  unfold engineStep
  split
  · exact .inr rfl
  · split
    · exact .inl ⟨_, rfl⟩
    · exact exec_outcome _ _

/-! ### The host's accesses -/

/-- Where each region lies (20_memory.md R33). -/
theorem regionOf_eq_some_iff (a : Nat) (r : Region) : regionOf a = some r ↔
    (match r with
      | .ctrl => a < 0x20
      | .keybuf => 0x20 ≤ a ∧ a < 0x40
      | .noncebuf => 0x40 ≤ a ∧ a < 0x50
      | .outbuf => 0x60 ≤ a ∧ a < 0x80
      | .xwin => 0x80 ≤ a ∧ a < 0xC0) := by
  unfold regionOf
  cases r <;> split_ifs <;> simp only [Option.some.injEq, reduceCtorEq, true_iff, false_iff] <;> omega

/-- The region of a legal access, and that it is legal. -/
theorem checkAccess_eq_some {addr n : Nat} {d : Dir} {r : Region} (h : checkAccess addr n d = some r) :
    regionOf addr = some r ∧ r.takesWidth n = true ∧ addr % n = 0 ∧
      regionOf (addr + n - 1) = some r ∧ rightsOk addr d = true := by
  unfold checkAccess at h
  split at h
  · cases h
  · rename_i r' hr
    split at h
    · rename_i hc
      cases h
      simp only [Bool.and_eq_true, beq_iff_eq] at hc
      exact ⟨hr, hc.1.1.1, hc.1.1.2, hc.1.2, hc.2⟩
    · cases h

theorem memRead_eq_ok {addr n : Nat} {s : State} {v : Word32} (h : memRead addr n s = .ok v) :
    ∃ r, checkAccess addr n .rd = some r ∧ busyOk s r .rd = true ∧ regionRead s r addr n = some v := by
  unfold memRead at h
  split at h
  · cases h
  · rename_i r hr
    split at h
    · rename_i hb
      split at h
      · rename_i u hu
        cases h
        exact ⟨r, hr, hb, hu⟩
      · cases h
    · cases h

theorem memWrite_eq_ok {addr n : Nat} {v : Word32} {s t : State} (h : memWrite addr n v s = .ok t) :
    ∃ r, checkAccess addr n .wr = some r ∧ s.status.busy = false ∧ t = regionWrite s r addr n v := by
  unfold memWrite at h
  split at h
  · cases h
  · rename_i r hr
    split at h
    · rename_i hb
      cases h
      exact ⟨r, hr, by simpa [busyOk] using hb, rfl⟩
    · cases h

/-- What a legal write of an idle engine does: an issue, a length register, buffer bytes, or a word. -/
inductive Written (s : State) (addr n : Nat) (v : Word32) : State → Prop where
  | issue (h : addr = 0x00) : Written s addr n v (s.issue v)
  | outLen (h : addr = 0x10) : Written s addr n v { s with outLen := v }
  | keyLen (h : addr = 0x14) : Written s addr n v { s with keyLen := v }
  | nonceLen (h : addr = 0x18) : Written s addr n v { s with nonceLen := v }
  | bytes (h : ∀ j < n, bufferOffset (addr + j) = true) (ha : addr ≠ 0x00) :
      Written s addr n v (s.setMem (storeLE s.mem addr v n))
  | word (ha : 0x80 ≤ addr) : Written s addr n v (s.writeX (xwinIdx addr) v)

/-- All that a legal write can do. -/
theorem memWrite_written {addr n : Nat} {v : Word32} {s t : State} (h : memWrite addr n v s = .ok t) :
    s.status.busy = false ∧ Written s addr n v t := by
  obtain ⟨r, hc, hb, rfl⟩ := memWrite_eq_ok h
  obtain ⟨h1, h2, h3, h4, h5⟩ := checkAccess_eq_some hc
  refine ⟨hb, ?_⟩
  have hbuf : r = .keybuf ∨ r = .noncebuf ∨ r = .outbuf →
      (∀ j < n, bufferOffset (addr + j) = true) ∧ addr ≠ 0x00 := by
    intro hr
    rw [regionOf_eq_some_iff] at h1 h4
    rcases hr with rfl | rfl | rfl
    all_goals
      refine ⟨fun j hj => ?_, by omega⟩
      simp only [bufferOffset, Bool.or_eq_true, Bool.and_eq_true, decide_eq_true_eq]
      omega
  cases r with
  | ctrl =>
    have hlt : addr < 0x20 := (regionOf_eq_some_iff _ _).1 h1
    simp only [Region.takesWidth, beq_iff_eq] at h2
    subst h2
    have : addr = 0x00 ∨ addr = 0x10 ∨ addr = 0x14 ∨ addr = 0x18 := by
      simp only [rightsOk, Bool.and_eq_true, bne_iff_ne] at h5
      omega
    rcases this with rfl | rfl | rfl | rfl
    · exact .issue rfl
    · exact .outLen rfl
    · exact .keyLen rfl
    · exact .nonceLen rfl
  | keybuf => exact .bytes (hbuf (.inl rfl)).1 (hbuf (.inl rfl)).2
  | noncebuf => exact .bytes (hbuf (.inr (.inl rfl))).1 (hbuf (.inr (.inl rfl))).2
  | outbuf => exact .bytes (hbuf (.inr (.inr rfl))).1 (hbuf (.inr (.inr rfl))).2
  | xwin => exact .word ((regionOf_eq_some_iff _ _).1 h1).1

/-- STATUS can be read in every state (20_memory.md R40). -/
theorem memRead_status (s : State) : memRead 0x04 4 s = .ok s.status.word := by
  cases hb : s.status.busy <;> simp [memRead, checkAccess, regionOf, Region.takesWidth, rightsOk, busyOk,
    regionRead, regRead, hb]

theorem Status.word_bit_zero (st : Status) : st.word.getLsbD 0 = st.busy := by
  obtain ⟨b, d, e, c, p⟩ := st
  cases b <;> cases d <;> cases e <;> cases c <;> cases p <;> rfl

/-- One round of WAIT goes on exactly while BUSY = 1. -/
theorem waitRound_eq (s : State) (rest : List HostOp) :
    waitRound s rest = if s.status.busy then .next s else .next { s with host := rest } := by
  simp only [waitRound, memRead_status, Status.word_bit_zero]

/-- What the host's move can do. -/
inductive HostMove (s : State) : State → Prop where
  | idle : HostMove s s
  | read (rest : List HostOp) (v : Word32) :
      HostMove s { s with host := rest, replies := v :: s.replies }
  | write (addr n : Nat) (v : Word32) (rest : List HostOp) (t : State)
      (hh : s.host = .write addr n v :: rest) (hb : s.status.busy = false)
      (hw : Written { s with host := rest } addr n v t) : HostMove s t
  | waited (rest : List HostOp) (hb : s.status.busy = false) : HostMove s { s with host := rest }

/-- All that the host's move can do. -/
theorem hostStep_move {s t : State} (h : hostStep s = .next t) : HostMove s t := by
  unfold hostStep at h
  split at h
  · cases h; exact .idle
  · rename_i addr n rest hh
    unfold hostRead at h
    split at h
    · cases h
      exact .read rest _
    · cases h
  · rename_i addr n v rest hh
    unfold hostWrite at h
    split at h
    · rename_i u hu
      cases h
      obtain ⟨hb, hw⟩ := memWrite_written hu
      exact .write addr n v rest _ hh hb hw
    · cases h
  · rename_i rest hh
    rw [waitRound_eq] at h
    split at h
    · cases h; exact .idle
    · rename_i hb
      cases h
      exact .waited rest (by simpa using hb)

/-! ### The step -/

/-- All that a step can do: the engine's step, the host's move, a reset, or a turn passed, from the state
whose schedule has moved on. -/
theorem step_cases {s t : State} (h : step s = .next t) :
    ∃ ts, (ts = s.turns ∨ ∃ a, s.turns = a :: ts) ∧
      ((s.status.busy = true ∧ engineStep { s with turns := ts } = .next t) ∨
       HostMove { s with turns := ts } t ∨
       (s.turns = .reset :: ts ∧ t = ({ s with turns := ts } : State).resetEngine)) := by
  unfold step moveNext at h
  split at h
  · rename_i hn
    refine ⟨s.turns, .inl rfl, ?_⟩
    have e : ({ s with turns := s.turns } : State) = s := rfl
    rw [e]
    by_cases hb : s.status.busy = true
    · rw [defaultTurn, if_pos hb, takeTurn, engineTurn, if_pos hb] at h
      exact .inl ⟨hb, h⟩
    · rw [defaultTurn, if_neg hb, takeTurn] at h
      exact .inr (.inl (hostStep_move h))
  · rename_i a ts hts
    refine ⟨ts, .inr ⟨a, hts⟩, ?_⟩
    cases a with
    | host => exact .inr (.inl (hostStep_move h))
    | engine =>
      simp only [takeTurn, engineTurn] at h
      split at h
      · rename_i hb
        exact .inl ⟨hb, h⟩
      · cases h
        exact .inr (.inl .idle)
    | reset =>
      cases h
      exact .inr (.inr ⟨hts, rfl⟩)

/-! ### Runs of several steps -/

/-- A run of `m + 1` steps of any machine is one step, then `m`. -/
theorem run_succ_of_next (M : Host.Core) {m : Nat} {s t : M.State} (h : M.step s = .next t) :
    M.run (m + 1) s = M.run m t := by
  simp only [Host.Core.run, h]

/-- The same of this machine, in its own names. -/
theorem core_run_succ {m : Nat} {s t : State} (h : step s = .next t) :
    Sys2Proof.core.run (m + 1) s = Sys2Proof.core.run m t :=
  run_succ_of_next Sys2Proof.core h

end Sys2Proof.Machine
end

