-- ==== Sys2Proof/Tests/Slice0.lean ====
section
/-! SUPPORT. Tests on small states: the well-formedness smoke, words written out from the formats, one-step
results from the spec's own vectors, and a witness for the hypotheses of each obligation that has any. -/

set_option maxRecDepth 20000

namespace Sys2Proof.Tests

open Sys2Proof Sys2Proof.Machine

/-! ### Helpers -/

/-- Bytes at rising offsets. -/
def bytesAt (off : Nat) (bs : List Byte) : Memory := bs.zipIdx.map fun p => (off + p.2, p.1)

/-- X[i] = i, key bytes 00 .. 1f, nonce bytes 20 .. 2f, OUTBUF never written, the lengths of RUN. -/
def filled : State :=
  { State.reset with
    x := Vector.ofFn fun i => some (BitVec.ofNat 32 i.val)
    mem := bytesAt 0x20 ((List.range 48).map (BitVec.ofNat 8))
    outLen := 32#32, keyLen := 32#32, nonceLen := 16#32 }

/-- `filled` with nothing in X, and OUTBUF all `aa`. -/
def loaded : State :=
  { filled with x := State.reset.x, mem := filled.mem ++ bytesAt 0x60 (List.replicate 32 0xaa#8) }

/-- The state with only X[0] .. X[3] = 1, 0, 0, 0. -/
def fourWords : State :=
  (((State.reset.writeX 0 1#32).writeX 1 0#32).writeX 2 0#32).writeX 3 0#32

/-- The state with X[i] = 0x03020100 + 0x04040404 i in the eight words EXTRACT reads, the rest `⊥`. -/
def eightWords : State :=
  State.reset.writeXs (([0, 5, 10, 15, 6, 7, 8, 9] : List WordIdx).map fun i =>
    (i, 0x03020100#32 + 0x04040404#32 * BitVec.ofNat 32 i.val))

/-- Whether a step answers a next state that passes a test. -/
def okNext (r : Result) (p : State → Bool) : Bool :=
  match r with
  | .next t => p t
  | .fault _ => false
  | .refused _ => false

/-- The fault of a step, if it is one. -/
def faultOf (r : Result) : Option Fault :=
  match r with
  | .next _ => none
  | .fault e => some e
  | .refused _ => none

/-- The next state of a step, `State.reset` where there is none. -/
def stateOf (r : Result) : State :=
  match r with
  | .next t => t
  | .fault _ => State.reset
  | .refused _ => State.reset

theorem eq_next_of_okNext {r : Result} {p : State → Bool} (h : okNext r p = true) :
    r = .next (stateOf r) := by
  cases r with
  | next t => rfl
  | fault e => cases h
  | refused e => cases h

theorem eq_fault_of_faultOf {r : Result} {e : Fault} (h : faultOf r = some e) : r = .fault e := by
  cases r with
  | next t => cases h
  | fault e' => cases h; rfl
  | refused e' => cases h

/-- The value a host read gives, if it gives one. -/
def readValue (addr n : Nat) (s : State) : Option Word32 := (memRead addr n s).toOption

/-- The fault a host read raises, if it raises one. -/
def readFault (addr n : Nat) (s : State) : Option Fault :=
  match memRead addr n s with
  | .ok _ => none
  | .error e => some e

/-- The fault a host write raises, if it raises one. -/
def writeFault (addr n : Nat) (s : State) : Option Fault :=
  match memWrite addr n 0#32 s with
  | .ok _ => none
  | .error e => some e

/-- The state a host write leaves, `State.reset` where it faults. -/
def written (addr n : Nat) (v : Word32) (s : State) : State := ((memWrite addr n v s).toOption).getD State.reset

/-- The words of X, `⊥` shown as 0. -/
def wordsOf (s : State) : List Word32 := s.x.toList.map fun w => w.getD 0#32

/-- The bytes of OUTBUF, `⊥` shown as 0. -/
def outOf (s : State) : List Byte := (List.range 32).map fun j => (s.mem.read (0x60 + j)).getD 0#8

/-! ### WellFormed: each pair of equal indices is refused (30_encoding.md R58) -/

theorem test_wf_refuses_a_b : (Instr.qr 3 3 8 12).wellFormed = false := by decide
theorem test_wf_refuses_a_c : (Instr.qr 3 4 3 12).wellFormed = false := by decide
theorem test_wf_refuses_a_d : (Instr.qr 3 4 8 3).wellFormed = false := by decide
theorem test_wf_refuses_b_c : (Instr.qr 0 4 4 12).wellFormed = false := by decide
theorem test_wf_refuses_b_d : (Instr.qr 0 4 8 4).wellFormed = false := by decide
theorem test_wf_refuses_c_d : (Instr.qr 0 4 8 8).wellFormed = false := by decide
theorem test_wf_takes_distinct : (Instr.qr 15 0 14 1).wellFormed = true := by decide

/-! ### Decode: words written bit by bit from the formats of 30_encoding.md R51, R52 -/

theorem test_decode_nop : decode (0#24 ++ 0b00000000#8) = .ok .nop := by rfl
theorem test_decode_loadc : decode (0#24 ++ 0b00000001#8) = .ok .loadc := by rfl
theorem test_decode_loadk : decode (0#24 ++ 0b00000010#8) = .ok .loadk := by rfl
theorem test_decode_loadn : decode (0#24 ++ 0b00000011#8) = .ok .loadn := by rfl
theorem test_decode_load : decode (0#24 ++ 0b00000100#8) = .ok .load := by rfl
theorem test_decode_colround : decode (0#24 ++ 0b00001001#8) = .ok .colround := by rfl
theorem test_decode_rowround : decode (0#24 ++ 0b00001010#8) = .ok .rowround := by rfl
theorem test_decode_dround : decode (0#24 ++ 0b00001011#8) = .ok .dround := by rfl
theorem test_decode_permute : decode (0#24 ++ 0b00001100#8) = .ok .permute := by rfl
theorem test_decode_extract : decode (0#24 ++ 0b00010000#8) = .ok .extract := by rfl
theorem test_decode_run : decode (0#24 ++ 0b00100000#8) = .ok .run := by rfl

/-- RSVD, D, C, B, A, OPC from bit 31 down: `QR 10, 14, 2, 6` is 0x0062EA08 (95_test_vectors.md P2). -/
theorem test_decode_qr :
    decode (0#8 ++ 6#4 ++ 2#4 ++ 14#4 ++ 10#4 ++ 0x08#8) = .ok (.qr 10 14 2 6) ∧
    (0#8 ++ 6#4 ++ 2#4 ++ 14#4 ++ 10#4 ++ 0x08#8) = 0x0062EA08#32 := by
  exact ⟨rfl, by decide⟩

/-- The illegal words listed in 95_test_vectors.md section 2.6. -/
theorem test_decode_refuses_listed_words :
    ([0x00000005, 0x00000007, 0x0000000D, 0x0000000F, 0x00000011, 0x0000001F, 0x00000021, 0x000000FF,
      0x00000100, 0x80000000, 0x00002001, 0x80000020, 0x00000008, 0x00084008, 0x01C84008] :
      List Word32).all spellsNothing = true := by decide

theorem test_decode_table_word :
    decodeTableWord 32 0x00C84008 = some (.qr 0 4 8 12) ∧ decodeTableWord 32 0x00000020 = some .run ∧
    decodeTableWord 32 0x00000008 = none := by decide

/-- The text of a command (30_encoding.md R60). -/
theorem test_asm_text : asmText (.qr 15 12 13 14) = "QR 15, 12, 13, 14" := by rfl

/-! ### Commands: 95_test_vectors.md sections 1 and 2 -/

theorem test_nop_clears_report :
    okNext (engineStep ({ filled with status := ⟨false, false, true, .length, .output⟩ }.issue 0#32))
      (fun t => t.status.word == 0x00000002#32 && t.einfo0 == 0#32) = true := by decide

theorem test_loadc_from_reset :
    okNext (exec .loadc State.reset) (fun t =>
      t.readX 0 == some 0x61707865#32 && t.readX 5 == some 0x3320646e#32 &&
      t.readX 10 == some 0x79622d32#32 && t.readX 15 == some 0x6b206574#32 && t.readX 1 == none) = true := by
  decide

theorem test_loadk_words :
    okNext (exec .loadk loaded) (fun t =>
      t.readX 4 == some 0x0f0e0d0c#32 && t.readX 11 == some 0x13121110#32 &&
      t.readX 14 == some 0x1f1e1d1c#32 && t.readX 5 == none) = true := by decide

/-- Key byte 31 holding `⊥` stops LOADK. -/
theorem test_loadk_unwritten :
    faultOf (exec .loadk { State.reset with mem := bytesAt 0x20 (List.replicate 31 0#8) }) =
      some .unwritten := by decide

theorem test_loadn_words :
    okNext (exec .loadn loaded) (fun t =>
      t.readX 6 == some 0x23222120#32 && t.readX 9 == some 0x2f2e2d2c#32 && t.readX 10 == none) = true := by
  decide

theorem test_load_words :
    okNext (exec .load loaded) (fun t => wordsOf t ==
      [0x61707865#32, 0x03020100#32, 0x07060504#32, 0x0b0a0908#32, 0x0f0e0d0c#32, 0x3320646e#32,
       0x23222120#32, 0x27262524#32, 0x2b2a2928#32, 0x2f2e2d2c#32, 0x79622d32#32, 0x13121110#32,
       0x17161514#32, 0x1b1a1918#32, 0x1f1e1d1c#32, 0x6b206574#32]) = true := by decide

theorem test_quarter_round_wraps :
    quarterRound 0xffffffff#32 0#32 0#32 1#32 = (0x00080000#32, 0#32, 0xffffffff#32, 0xfffffffe#32) ∧
    quarterRound 0xe7e8c006#32 0xc4f9417d#32 0x6479b4b2#32 0x68c67137#32 =
      (0xe876d72b#32, 0x9361dfd5#32, 0xf1460244#32, 0x948541a3#32) := by decide

/-- Program P4: QR 0, 1, 2, 3 and then QR 3, 2, 1, 0. -/
theorem test_qr_twice :
    okNext (andThen (exec (.qr 0 1 2 3) fourWords) (exec (.qr 3 2 1 0))) (fun t =>
      t.readX 0 == some 0x51142835#32 && t.readX 1 == some 0x23412811#32 &&
      t.readX 2 == some 0x2841a094#32 && t.readX 3 == some 0x6149d155#32 && t.readX 4 == none) = true := by
  decide

theorem test_qr_repeated_index :
    okNext (step (State.reset.withFetchWord 32 0x00084008)) (fun t =>
      t.status.word == 0x00000024#32 && t.einfo0 == 0x00084008#32 && t.readX 0 == none) = true := by decide

theorem test_colround_words :
    okNext (exec .colround filled) (fun t => wordsOf t ==
      [0x20560736#32, 0xc3e2c001#32, 0x00103002#32, 0x00000d03#32, 0x00000604#32, 0x703b0fa6#32,
       0x07020004#32, 0x001a2407#32, 0x000c0808#32, 0x00000309#32, 0xc0181c42#32, 0x46214008#32,
       0x81c1800d#32, 0x00061c0d#32, 0x0000080e#32, 0x903d18e2#32]) = true := by decide

theorem test_colround_unwritten : faultOf (exec .colround fourWords) = some .unwritten := by decide

theorem test_rowround_words :
    okNext (exec .rowround filled) (fun t => wordsOf t ==
      [0x881581cd#32, 0x00000181#32, 0x00030202#32, 0x60706003#32, 0x2351a005#32, 0xd8308d6f#32,
       0x00000486#32, 0x00091607#32, 0x00132a08#32, 0x6672600b#32, 0x284d9a1c#32, 0x0000098b#32,
       0x00000e8c#32, 0x001d360d#32, 0xa893200d#32, 0x586aa2ce#32]) = true := by decide

theorem test_dround_words :
    okNext (exec .dround filled) (fun t => wordsOf t ==
      [0x5ff84399#32, 0xe8e8dc91#32, 0x7dd7be10#32, 0x135421db#32, 0x96c9d24f#32, 0xbdbf75d0#32,
       0x1a88d53c#32, 0x87d3e112#32, 0x8e085c1c#32, 0xe840980f#32, 0x10b5c561#32, 0x4a2ee5e8#32,
       0x9f51f845#32, 0x1e245252#32, 0xc952ffa0#32, 0xd7f6853f#32]) = true := by decide

theorem test_permute_words :
    okNext (exec .permute filled) (fun t => wordsOf t ==
      [0xe1a0ebe0#32, 0x06032a01#32, 0x1ec19922#32, 0x91ffb36b#32, 0x83068331#32, 0xa7c06e27#32,
       0x75b43861#32, 0xccf85177#32, 0xf61ba818#32, 0xab1b8969#32, 0xec9ed7ec#32, 0x478636ae#32,
       0x745dd6a1#32, 0x8bbe7220#32, 0xa1cc9bd1#32, 0x5fc70ce1#32]) = true := by decide

theorem test_extract_bytes :
    okNext (exec .extract eightWords) (fun t => outOf t ==
      [0x00#8, 0x01#8, 0x02#8, 0x03#8, 0x14#8, 0x15#8, 0x16#8, 0x17#8, 0x28#8, 0x29#8, 0x2a#8, 0x2b#8,
       0x3c#8, 0x3d#8, 0x3e#8, 0x3f#8, 0x18#8, 0x19#8, 0x1a#8, 0x1b#8, 0x1c#8, 0x1d#8, 0x1e#8, 0x1f#8,
       0x20#8, 0x21#8, 0x22#8, 0x23#8, 0x24#8, 0x25#8, 0x26#8, 0x27#8]) = true := by decide

/-- The key and the zero nonce of vector V1. -/
def vectorOne : List Byte :=
  [0x4a#8, 0x5d#8, 0x9d#8, 0x5b#8, 0xa4#8, 0xce#8, 0x2d#8, 0xe1#8, 0x72#8, 0x8e#8, 0x3b#8, 0xf4#8,
   0x80#8, 0x35#8, 0x0f#8, 0x25#8, 0xe0#8, 0x7e#8, 0x21#8, 0xc9#8, 0x47#8, 0xd1#8, 0x9e#8, 0x33#8,
   0x76#8, 0xf0#8, 0x9b#8, 0x3c#8, 0x1e#8, 0x16#8, 0x17#8, 0x42#8] ++ List.replicate 16 0#8

/-- Vector V1. -/
theorem test_run_vector_one :
    okNext (exec .run { loaded with mem := bytesAt 0x20 vectorOne })
      (fun t => t.status.word == 0x00000002#32 && outOf t ==
        [0x1b#8, 0x27#8, 0x55#8, 0x64#8, 0x73#8, 0xe9#8, 0x85#8, 0xd4#8, 0x62#8, 0xcd#8, 0x51#8, 0x19#8,
         0x7a#8, 0x9a#8, 0x46#8, 0xc7#8, 0x60#8, 0x09#8, 0x54#8, 0x9e#8, 0xac#8, 0x64#8, 0x74#8, 0xf2#8,
         0x06#8, 0xc4#8, 0xee#8, 0x08#8, 0x44#8, 0xf6#8, 0x83#8, 0x89#8]) = true := by decide

/-- Program P3's length errors. -/
theorem test_run_lengths :
    okNext (exec .run { State.reset with keyLen := 32#32, nonceLen := 16#32 }) (fun t =>
      t.status.word == 0x00000114#32 && t.einfo0 == 0#32 && t.einfo1 == 32#32) = true ∧
    okNext (exec .run { State.reset with outLen := 32#32, keyLen := 31#32, nonceLen := 16#32 }) (fun t =>
      t.status.word == 0x00000214#32 && t.einfo0 == 31#32 && t.einfo1 == 32#32) = true ∧
    okNext (exec .run { State.reset with outLen := 32#32, keyLen := 32#32, nonceLen := 24#32 }) (fun t =>
      t.status.word == 0x00000314#32 && t.einfo0 == 24#32 && t.einfo1 == 16#32) = true := by decide

/-! ### Host accesses: 95_test_vectors.md section 2.7 -/

theorem test_reads_after_reset :
    readValue 0x1C 4 State.reset = some 0x00102020#32 ∧ readValue 0x04 4 State.reset = some 0#32 ∧
    readValue 0x10 4 State.reset = some 0#32 ∧ readFault 0x60 4 State.reset = some .unwritten ∧
    readFault 0x80 4 State.reset = some .unwritten := by decide

theorem test_bad_accesses :
    ([(0x00, 4), (0x04, 1), (0x22, 4), (0x21, 2), (0x50, 4), (0xC0, 4), (0xFC, 4), (0x80, 1)] :
      List (Nat × Nat)).all (fun a => readFault a.1 a.2 filled == some .badAccess) = true ∧
    ([(0x04, 4), (0x1C, 4), (0x5F, 1), (0x84, 2)] :
      List (Nat × Nat)).all (fun a => writeFault a.1 a.2 filled == some .badAccess) = true := by decide

theorem test_busy_accesses :
    readValue 0x04 4 (filled.issue 0#32) = some 1#32 ∧ readValue 0x14 4 (filled.issue 0#32) = some 32#32 ∧
    readFault 0x60 4 (filled.issue 0#32) = some .busyAccess ∧
    readFault 0x00 4 (filled.issue 0#32) = some .badAccess ∧
    writeFault 0x10 4 (filled.issue 0#32) = some .busyAccess ∧
    writeFault 0x00 4 (filled.issue 0#32) = some .busyAccess := by decide

/-- `WR32 0x20, 0x5b9d5d4a` and three narrower reads of it. -/
theorem test_narrow_reads :
    readValue 0x20 1 (written 0x20 4 0x5b9d5d4a#32 State.reset) = some 0x4a#32 ∧
    readValue 0x23 1 (written 0x20 4 0x5b9d5d4a#32 State.reset) = some 0x5b#32 ∧
    readValue 0x22 2 (written 0x20 4 0x5b9d5d4a#32 State.reset) = some 0x5b9d#32 ∧
    readFault 0x20 4 (written 0x20 1 0x4a#32 State.reset) = some .unwritten := by decide

/-- A reset discards an issued RUN (section 2.8). -/
theorem test_reset_discards :
    okNext (takeTurn .reset (loaded.issue 0x20#32)) (fun t =>
      t.status.word == 0#32 && t.cmdLatch == none && t.mem == [] && t.readX 0 == none) = true := by decide

/-! ### Witnesses: the hypotheses of each obligation are met together, clause by clause -/

/-- `filled` with the command word of PERMUTE latched. -/
def busy : State := filled.issue 0x0000000C#32

/-- Every run of a command on a state that passes its test ends in its next state. -/
theorem next_of_decide {r : Result} (h : okNext r (fun _ => true) = true) : r = .next (stateOf r) :=
  eq_next_of_okNext h

theorem witness_ResetEventDiscardsEverything :
    ({ busy with turns := [.reset, .host] } : State).turns = .reset :: [.host] := by rfl

/-- An errored state and a busy one, each meeting the invariant, and a step of each. -/
theorem witness_EveryStepKeepsTheInvariant :
    (Inv busy ∧ ∃ t, step busy = .next t) ∧
    (Inv (stateOf (engineStep (filled.issue 0x00000005#32))) ∧
      ∃ t, step (stateOf (engineStep (filled.issue 0x00000005#32))) = .next t) :=
  ⟨⟨⟨by decide, by decide, by decide, by decide, by decide⟩, _, next_of_decide (by decide)⟩,
   ⟨⟨by decide, by decide, by decide, by decide, by decide⟩, _, next_of_decide (by decide)⟩⟩

theorem witness_CanonicalMemoriesReadingAlikeAreEqual :
    ((Memory.write [] 0x21 2#8).write 0x20 1#8).wf = true ∧
    ((Memory.write [] 0x20 1#8).write 0x21 2#8).wf = true ∧
    ∀ a, ((Memory.write [] 0x21 2#8).write 0x20 1#8).read a =
      ((Memory.write [] 0x20 1#8).write 0x21 2#8).read a :=
  ⟨by decide, by decide, fun _ => rfl⟩

theorem witness_DecodingAnEncodedCommandGivesItBack :
    (Instr.qr 15 14 1 0).wellFormed = true ∧ Instr.run.wellFormed = true := by decide

theorem witness_ADecodedWordIsItsCommandsEncoding :
    decode 0x00EDCF08#32 = .ok (.qr 15 12 13 14) ∧ decode 0x00000000#32 = .ok .nop := ⟨rfl, rfl⟩

/-- Each kind of illegal word at the ends of its range, and a latched one whose step is taken. -/
theorem witness_ReservedOpcodesBitsAndRepeatedIndicesAreIllegal :
    (∀ v ∈ ([0x05#32, 0x07#32, 0x0D#32, 0x0F#32, 0x11#32, 0x1F#32, 0x21#32, 0xFF#32, 0xFFFFFFFF#32] : List Word32),
      v.toNat % 256 ∉ [0x00, 0x01, 0x02, 0x03, 0x04, 0x08, 0x09, 0x0A, 0x0B, 0x0C, 0x10, 0x20]) ∧
    (∀ v ∈ ([0x00000100#32, 0x80000000#32, 0x00002001#32, 0x80000020#32] : List Word32),
      v.toNat % 256 ∈ [0x00, 0x01, 0x02, 0x03, 0x04, 0x09, 0x0A, 0x0B, 0x0C, 0x10, 0x20] ∧
        v.toNat / 256 ≠ 0) ∧
    (∀ v ∈ ([0x01C84008#32, 0x80C84008#32] : List Word32), v.toNat % 256 = 0x08 ∧ v.toNat / 16777216 ≠ 0) ∧
    (∀ v ∈ ([0x00000008#32, 0x00084008#32] : List Word32), v.toNat % 256 = 0x08 ∧ ¬ DistinctIndexFields v) ∧
    ∃ t, (filled.issue 0x05#32).cmdLatch = some 0x05#32 ∧ engineStep (filled.issue 0x05#32) = .next t :=
  ⟨by simp, by simp, by simp, by simp, _, rfl, next_of_decide (by decide)⟩

theorem witness_AStepRunsTheDecodedCommand :
    busy.cmdLatch = some 0x0000000C#32 ∧ decode 0x0000000C#32 = .ok .permute ∧ busy.status.busy = true ∧
    busy.turns = [] ∧ ({ busy with turns := [.engine] } : State).turns = .engine :: [] :=
  ⟨rfl, rfl, rfl, rfl, rfl⟩

theorem witness_AFetchedWordRunsNext : (Instr.qr 0 4 8 12).wellFormed = true := by decide

/-- A read that answers, one that faults, a write that lands, one that faults. -/
theorem witness_AHostTurnMakesTheOldestAccess :
    readValue 0x20 4 filled = some 0x03020100#32 ∧ readFault 0x60 4 filled = some .unwritten ∧
    written 0x3F 1 0#32 filled ≠ State.reset ∧ writeFault 0x50 1 filled = some .badAccess ∧
    ({ filled with turns := [.host], host := [.read 0x20 4] } : State).turns = .host :: [] ∧
    ({ filled with turns := [.host], host := [.wait] } : State).host = .wait :: [] := by decide

theorem witness_IssueLatchesTheWordAndClearsTheReport :
    filled.status.busy = false ∧ busy.status.busy = true := by decide

/-- One word for each of the five reports. -/
theorem witness_AnIssuedCommandEndsIdleWithAReport :
    (∃ t, engineStep (filled.issue 0x20#32) = .next t) ∧ (∃ t, engineStep (filled.issue 0x05#32) = .next t) ∧
    (∃ t, engineStep (State.reset.issue 0x20#32) = .next t) :=
  ⟨⟨_, next_of_decide (by decide)⟩, ⟨_, next_of_decide (by decide)⟩, ⟨_, next_of_decide (by decide)⟩⟩

theorem witness_NoStepIsRefusedAndEnginesFaultOnlyUnwritten :
    engineStep (State.reset.issue 0x02#32) = .fault .unwritten := eq_fault_of_faultOf (by decide)

/-- Words of format-N commands with a reserved bit set, lowest and highest, for every opcode. -/
theorem witness_FormatNWord :
    ∀ opc ∈ [0x00, 0x01, 0x02, 0x03, 0x04, 0x09, 0x0A, 0x0B, 0x0C, 0x10, 0x20],
      ∀ top ∈ [0x100, 0x80000000], (BitVec.ofNat 32 (opc + top)).toNat % 256 = opc ∧
        (BitVec.ofNat 32 (opc + top)).toNat / 256 ≠ 0 := by decide

/-- All key bytes written, the first and the last word's bytes among them; and one missing. -/
theorem witness_LoadkPlacesTheKeyWords :
    loaded.keyWritten ∧
    (loaded.mem.read 0x20 = some 0x00#8 ∧ loaded.mem.read 0x21 = some 0x01#8 ∧
      loaded.mem.read 0x22 = some 0x02#8 ∧ loaded.mem.read 0x23 = some 0x03#8) ∧
    (loaded.mem.read 0x3C = some 0x1c#8 ∧ loaded.mem.read 0x3D = some 0x1d#8 ∧
      loaded.mem.read 0x3E = some 0x1e#8 ∧ loaded.mem.read 0x3F = some 0x1f#8) ∧
    ¬ ({ State.reset with mem := bytesAt 0x20 (List.replicate 31 0#8) } : State).keyWritten := by decide

theorem witness_LoadnPlacesTheNonceWords :
    loaded.nonceWritten ∧
    (loaded.mem.read 0x40 = some 0x20#8 ∧ loaded.mem.read 0x41 = some 0x21#8 ∧
      loaded.mem.read 0x42 = some 0x22#8 ∧ loaded.mem.read 0x43 = some 0x23#8) ∧
    (loaded.mem.read 0x4C = some 0x2c#8 ∧ loaded.mem.read 0x4D = some 0x2d#8 ∧
      loaded.mem.read 0x4E = some 0x2e#8 ∧ loaded.mem.read 0x4F = some 0x2f#8) ∧
    ¬ ({ State.reset with mem := bytesAt 0x40 (List.replicate 15 0#8) } : State).nonceWritten := by decide

theorem witness_LoadFillsTheWholeState :
    loaded.keyWritten ∧ loaded.nonceWritten ∧
    ¬ (({ State.reset with mem := bytesAt 0x20 (List.replicate 47 0#8) } : State).keyWritten ∧
      ({ State.reset with mem := bytesAt 0x20 (List.replicate 47 0#8) } : State).nonceWritten) := by decide

theorem witness_WordOperationsWrapAndRotate : 0 < 1 ∧ 1 < 32 ∧ 0 < 31 ∧ 31 < 32 := by decide

theorem witness_QrMixesItsFourWords :
    ([0, 15, 1, 14] : List WordIdx).Nodup ∧
    (∀ v ∈ ([0x01C84008#32, 0x00000008#32] : List Word32), v.toNat % 256 = 0x08 ∧
      (v.toNat / 16777216 ≠ 0 ∨ ¬ DistinctIndexFields v)) ∧
    (filled.readX 0 = some 0#32 ∧ filled.readX 15 = some 15#32 ∧ filled.readX 1 = some 1#32 ∧
      filled.readX 14 = some 14#32) ∧
    ¬ fourWords.qrWritten 0 1 2 4 ∧ ([0, 1, 2, 4] : List WordIdx).Nodup :=
  ⟨by decide, by simp, by decide, by decide, by decide⟩

theorem witness_ARepeatedIndexQrTermSignalsIllegal :
    ¬ ([0, 4, 8, 0] : List WordIdx).Nodup ∧ ¬ ([0, 1, 2, 2] : List WordIdx).Nodup := by decide

/-- The witness of COLROUND, ROWROUND, DROUND and PERMUTE: all words written, the first and the last group
read; and a state with words missing. -/
theorem witness_RoundCommands :
    filled.allXWritten ∧ ¬ fourWords.allXWritten ∧
    (filled.readX 0 = some 0#32 ∧ filled.readX 4 = some 4#32 ∧ filled.readX 8 = some 8#32 ∧
      filled.readX 12 = some 12#32) ∧
    (filled.readX 15 = some 15#32 ∧ filled.readX 3 = some 3#32 ∧ filled.readX 7 = some 7#32 ∧
      filled.readX 11 = some 11#32) := by decide

/-- The all-zero state of PERMUTE's fixed point. -/
theorem witness_PermuteIsTenDrounds :
    ∀ i, ({ filled with x := Vector.replicate 16 (some 0#32) } : State).readX i = some 0#32 := by decide

theorem witness_TheQuarterRoundsOfAPhaseCommute :
    colGroups.reverse.Perm colGroups ∧ rowGroups.reverse.Perm rowGroups :=
  ⟨List.reverse_perm _, List.reverse_perm _⟩

/-- Two states that differ outside X. -/
theorem witness_RoundCommandsLoseNoInformation : ∃ t t',
    exec .dround filled = .next t ∧ exec .dround { filled with outLen := 0#32 } = .next t' ∧
      t.x = t'.x :=
  ⟨_, _, next_of_decide (by decide), next_of_decide (by decide), by decide⟩

theorem witness_RoundCommandsNeedEveryWordQrOnlyItsFour :
    State.reset.readX 0 = none ∧ State.reset.readX 15 = none ∧ ([0, 1, 2, 3] : List WordIdx).Nodup := by
  decide

theorem witness_ExtractWritesTheOutputBuffer :
    eightWords.outXWritten ∧ eightWords.readX 0 = some 0x03020100#32 ∧
    eightWords.readX 9 = some 0x27262524#32 ∧ ¬ fourWords.outXWritten := by decide

/-- Each violated length alone, none, and more than one. -/
theorem witness_ValidateReportsTheFirstWrongLength :
    State.reset.outLen ≠ 32#32 ∧
    (({ filled with keyLen := 31#32 } : State).outLen = 32#32 ∧
      ({ filled with keyLen := 31#32 } : State).keyLen ≠ 32#32) ∧
    (({ filled with nonceLen := 24#32 } : State).keyLen = 32#32 ∧
      ({ filled with nonceLen := 24#32 } : State).nonceLen ≠ 16#32) ∧ filled.lengthsOk := by decide

theorem witness_RunReportsTheFirstWrongLength :
    Instr.permute ≠ .run ∧ State.reset.outLen ≠ 32#32 := by decide

theorem witness_RunIsLoadPermuteExtract :
    loaded.lengthsOk ∧ loaded.keyWritten ∧ loaded.nonceWritten ∧
    (∃ t w, exec .run loaded = .next t ∧ t.readX 0 = some w) ∧
    (({ loaded with mem := [] } : State).lengthsOk ∧
      ¬ (({ loaded with mem := [] } : State).keyWritten ∧ ({ loaded with mem := [] } : State).nonceWritten)) ∧
    validate State.reset = some ⟨.output, 0#32, 32#32⟩ :=
  ⟨by decide, by decide, by decide,
    ⟨_, ((stateOf (exec .run loaded)).readX 0).getD 0#32, next_of_decide (by decide), by decide⟩,
    by decide, by decide⟩

/-- The same key and nonce beside different X, OUTBUF and STATUS. -/
theorem witness_RunDependsOnKeyAndNonceAlone :
    filled.lengthsOk ∧ loaded.lengthsOk ∧ filled.keyWritten ∧ filled.nonceWritten ∧
    (∀ a < 0x50, 0x20 ≤ a → filled.mem.read a = loaded.mem.read a) ∧ filled.x ≠ loaded.x ∧
    filled.mem.read 0x60 ≠ loaded.mem.read 0x60 := by decide

theorem witness_AnErroredCommandChangesNoData :
    (filled.issue 0x05#32).status.err = false ∧
    (∃ t, engineStep (filled.issue 0x05#32) = .next t ∧ t.status.err = true) ∧
    (∃ t, engineStep (State.reset.issue 0x20#32) = .next t ∧ t.status.err = true) :=
  ⟨by decide, ⟨_, next_of_decide (by decide), by decide⟩, ⟨_, next_of_decide (by decide), by decide⟩⟩

theorem witness_TheEngineWritesOnlyWordsOutbufAndReport : ∃ t, engineStep (loaded.issue 0x20#32) = .next t :=
  ⟨_, next_of_decide (by decide)⟩

/-- An errored, idle engine whose host writes a length register. -/
def errored : State :=
  { stateOf (engineStep (filled.issue 0x05#32)) with host := [.write 0x10 4 0#32] }

theorem witness_TheReportStaysUntilTheNextIssueOrReset :
    errored.status.busy = false ∧ errored.status.err = true ∧ errored.turns.head? ≠ some .reset ∧
    (∀ n v, errored.host.head? ≠ some (.write 0x00 n v)) ∧ ∃ t, step errored = .next t :=
  ⟨by decide, by decide, by decide, fun n v h => by simp [errored] at h,
    _, next_of_decide (by decide)⟩

theorem witness_OnlyResetUnwritesACell :
    busy.turns.head? ≠ some .reset ∧ (∃ t, step busy = .next t) ∧ (busy.mem.read 0x20).isSome = true ∧
    (busy.readX 15).isSome = true :=
  ⟨by decide, ⟨_, next_of_decide (by decide)⟩, by decide, by decide⟩

/-- Where the map's rows begin and end: the last legal access of a row and the first beyond it. -/
theorem witness_IllegalAccessesAreExactlyTheBadOnes :
    (LegalIn readableRows 0x1C 4 ∧ LegalIn readableRows 0x4F 1 ∧ LegalIn readableRows 0xBC 4 ∧
      LegalIn writableRows 0x00 4 ∧ LegalIn writableRows 0x18 4 ∧ LegalIn writableRows 0x7E 2) ∧
    (¬ LegalIn readableRows 0x00 4 ∧ ¬ LegalIn readableRows 0x50 1 ∧ ¬ LegalIn readableRows 0xC0 4 ∧
      ¬ LegalIn writableRows 0x04 4 ∧ ¬ LegalIn writableRows 0x1C 4 ∧ ¬ LegalIn writableRows 0x4E 4) := by
  simp [LegalIn, readableRows, writableRows]

/-- A buffer's first byte, its last word, and bytes that hold `⊥`. -/
theorem witness_BufferAccesses :
    filled.status.busy = false ∧
    (1 ∈ [1, 2, 4] ∧ 0x20 % 1 = 0 ∧ 0x20 ≤ 0x20 ∧ 0x20 + 1 ≤ 0x50) ∧
    (4 ∈ [1, 2, 4] ∧ 0x4C % 4 = 0 ∧ 0x20 ≤ 0x4C ∧ 0x4C + 4 ≤ 0x50) ∧
    (4 ∈ [1, 2, 4] ∧ 0x7C % 4 = 0 ∧ 0x60 ≤ 0x7C ∧ 0x7C + 4 ≤ 0x80) ∧
    (∀ j < 4, (filled.mem.read (0x4C + j)).isSome = true) ∧
    (∃ j < 4, filled.mem.read (0x7C + j) = none) := by decide

theorem witness_ACodecLoadAssemblesFourBytes :
    (filled.mem.read 0x3C = some 0x1c#8 ∧ filled.mem.read (0x3C + 1) = some 0x1d#8 ∧
      filled.mem.read (0x3C + 2) = some 0x1e#8 ∧ filled.mem.read (0x3C + 3) = some 0x1f#8) ∧
    3 < 4 ∧ State.reset.mem.read (0x3C + 3) = none := by decide

theorem witness_XwinReachesTheStateWords :
    filled.status.busy = false ∧ filled.readX 0 = some 0#32 ∧ filled.readX 15 = some 15#32 ∧
    State.reset.status.busy = false ∧ State.reset.readX 15 = none := by decide

theorem witness_InformationAndLengthRegistersReadBack : filled.status.busy = false := by decide

theorem witness_ABusyEngineNarrowsTheHost :
    busy.status.busy = true ∧ LegalIn writableRows 0x00 4 ∧ LegalIn readableRows 0x20 1 ∧
    LegalIn readableRows 0xBC 4 ∧ ¬ LegalIn writableRows 0x04 4 ∧ ¬ LegalIn readableRows 0x00 4 := by
  refine ⟨rfl, ?_⟩
  simp [LegalIn, readableRows, writableRows]

theorem witness_NoHostMoveReachesALatchedCommand :
    ({ busy with host := [.read 0x14 4] } : State).status.busy = true ∧
    ∃ t, hostStep { busy with host := [.read 0x14 4] } = .next t :=
  ⟨rfl, _, next_of_decide (by decide)⟩

/-- A read, a buffer write, an XWIN write, a length write and an issue that land. -/
theorem witness_ReadsHaveNoSideEffectAndWritesAreIdempotent :
    (∃ t, hostRead 0x20 4 filled = .next t) ∧ filled.mem.wf = true ∧
    (∀ a ∈ [0x10, 0x20, 0x60, 0xBC], a ≠ 0x00 ∧
      memWrite a 4 1#32 filled = .ok (written a 4 1#32 filled)) ∧
    memWrite 0x00 4 1#32 filled = .ok (written 0x00 4 1#32 filled) :=
  ⟨⟨_, next_of_decide (by decide)⟩, by decide,
    ⟨by
      intro a ha
      simp only [List.mem_cons, List.not_mem_nil, or_false] at ha
      rcases ha with rfl | rfl | rfl | rfl <;> exact ⟨by decide, rfl⟩, rfl⟩⟩

/-- A WAIT behind an issued PERMUTE, the host named for the next two turns. -/
theorem witness_AWaitEndsAfterTheEngineStep :
    ({ busy with host := [.wait], turns := List.replicate 2 .host } : State).status.busy = true ∧
    ∃ t, engineStep { busy with host := [.wait], turns := [] } = .next t :=
  ⟨rfl, _, next_of_decide (by decide)⟩

theorem witness_ThePseudoInstructionsWriteTheirCells :
    State.reset.status.busy = false ∧ State.reset.turns = [] ∧ State.reset.host = [] := by decide

/-- Two engines, one busy, at two windows. -/
def twoEngines : Platform := [⟨0x100, busy⟩, ⟨0x300, filled⟩]

theorem moves {p : Platform} {k : Nat} {m : Mounted} {f : State → Result} {t : State}
    (hk : p[k]? = some m) (h : f m.engine = .next t) : ∃ q, p.onEngine k f = .next q := by
  simp only [Platform.onEngine, hk, h]
  exact ⟨_, rfl⟩

/-- Each move is taken on one engine of two. -/
theorem witness_EnginesOfAPlatformAreIndependent :
    twoEngines.wf = true ∧ twoEngines[0]? = some ⟨0x100, busy⟩ ∧ twoEngines[1]? = some ⟨0x300, filled⟩ ∧
    (⟨0x100, busy⟩ : Mounted).offset 0x320 = none ∧
    (∀ mv ∈ ([.busRead 0x320 4, .busWrite 0x320 4 0#32, .engine 0, .reset 1, .scheduled 0] :
      List PlatformMove), ∃ p, twoEngines.move mv = .next p) := by
  refine ⟨by decide, rfl, rfl, by decide, ?_⟩
  intro mv h
  simp only [List.mem_cons, List.not_mem_nil, or_false] at h
  rcases h with rfl | rfl | rfl | rfl | rfl
  · exact ⟨_, rfl⟩
  · exact ⟨_, rfl⟩
  · exact moves (p := twoEngines) (k := 0) (f := engineTurn) rfl
      (next_of_decide (by decide : okNext (engineTurn busy) _ = true))
  · exact ⟨_, rfl⟩
  · exact moves (p := twoEngines) (k := 0) (f := moveNext) rfl
      (next_of_decide (by decide : okNext (moveNext busy) _ = true))

/-- The ends of a window: a write and a read that land and that fault. -/
theorem witness_BaseAndOffsetReachTheMountedEngine :
    twoEngines.wf = true ∧ twoEngines[1]? = some ⟨0x300, filled⟩ ∧ 0xFF < 256 ∧
    (∃ t, hostWrite 0x00 4 0#32 filled = .next t) ∧ (∃ t, hostRead 0xBC 4 filled = .next t) ∧
    hostWrite 0xFF 1 0#32 filled = .fault .badAccess ∧ hostRead 0x60 4 filled = .fault .unwritten :=
  ⟨by decide, rfl, by decide, ⟨_, next_of_decide (by decide)⟩, ⟨_, next_of_decide (by decide)⟩,
    eq_fault_of_faultOf (by decide), eq_fault_of_faultOf (by decide)⟩

end Sys2Proof.Tests
end

section
/-! PROOF. What the control registers answer to a host access, and the reset values of 10_state.md:
R28 (O1) and R25 (O49). -/

namespace Sys2Proof.Machine

/-! ### Accesses to the control registers (20_memory.md R33 to R35) -/

/-- An aligned word of the CTRL region passes the legality check exactly where its rights allow it. -/
theorem checkAccess_ctrl {addr : Nat} (d : Dir) (hlt : addr < 0x20) (hal : addr % 4 = 0) :
    checkAccess addr 4 d = if rightsOk addr d then some .ctrl else none := by
  have hfirst : regionOf addr = some .ctrl := (regionOf_eq_some_iff _ _).2 hlt
  have hlast : regionOf (addr + 3) = some .ctrl :=
    (regionOf_eq_some_iff _ _).2 (by dsimp only; omega)
  simp [checkAccess, hfirst, hlast, hal, Region.takesWidth]

/-- Every control register but CMD can be read in every state, busy or idle (R31, R40). -/
theorem memRead_ctrl {addr : Nat} (s : State) (hlt : addr < 0x20) (hal : addr % 4 = 0)
    (hcmd : addr ≠ 0x00) : memRead addr 4 s = .ok (regRead s addr) := by
  have hr : rightsOk addr .rd = true := bne_iff_ne.2 hcmd
  have hb : busyOk s .ctrl .rd = true := by simp [busyOk]
  simp only [memRead, checkAccess_ctrl .rd hlt hal, hr, hb, if_true, regionRead]

/-- A write of a read-only control register faults in every state, busy or idle (R35, R118). -/
theorem memWrite_ctrl_readOnly {addr : Nat} (s : State) (v : Word32) (hlt : addr < 0x20)
    (hal : addr % 4 = 0) (hro : rightsOk addr .wr = false) :
    memWrite addr 4 v s = .error .badAccess := by
  simp only [memWrite, checkAccess_ctrl .wr hlt hal, hro, Bool.false_eq_true, if_false]

/-! ### PARAMS (10_state.md R25) -/

/-- The three sizes of 00_scope.md R1 in their bytes of PARAMS. -/
theorem paramsWord_eq : paramsWord = 0x00102020#32 := by decide

theorem memRead_params (s : State) : memRead 0x1C 4 s = .ok 0x00102020#32 := by
  rw [memRead_ctrl s (by decide) (by decide) (by decide), ← paramsWord_eq]
  rfl

theorem memWrite_params (s : State) (v : Word32) : memWrite 0x1C 4 v s = .error .badAccess :=
  memWrite_ctrl_readOnly s v (by decide) (by decide) (by decide)

/-- Settles O49: PARAMS is a register of the CTRL region that no field of the state backs, and R35 gives
it no write. -/
theorem paramsIsHardwired : Obligations.ParamsIsHardwired :=
  fun s v => ⟨memRead_params s, memWrite_params s v⟩

/-! ### Reset (10_state.md R28) -/

@[simp] theorem State.reset_readX (i : WordIdx) : State.reset.readX i = none := by
  simp [State.readX, State.reset]

@[simp] theorem State.reset_mem_read (a : Nat) : State.reset.mem.read a = none := rfl

@[simp] theorem State.reset_status_word : State.reset.status.word = 0x00000000#32 := by decide

/-- STATUS reads 0 at reset. -/
theorem memRead_status_reset : memRead 0x04 4 State.reset = .ok 0x00000000#32 := by
  rw [memRead_status, State.reset_status_word]

/-- Settles O1: the cells of R28's table hold `⊥`, its registers 0, and the two words the host reads of
STATUS and PARAMS follow from the reads of any state. -/
theorem resetLeavesTheRuleValues : Obligations.ResetLeavesTheRuleValues :=
  ⟨State.reset_readX, State.reset_mem_read, rfl, rfl, memRead_status_reset,
    rfl, rfl, rfl, rfl, rfl, memRead_params State.reset⟩

end Sys2Proof.Machine
end

section
/-! PROOF. Which host accesses are legal, and what a legal one reaches (20_memory.md sections 3 to 5):
R34 and R35 (O43), R37 (O44), R39 (O48) and R40 (O52). -/

namespace Sys2Proof.Machine

/-! ### Regions by their bounds (20_memory.md R33) -/

/-- The first offset of a region. -/
def Region.base : Region → Nat
  | .ctrl => 0x00
  | .keybuf => 0x20
  | .noncebuf => 0x40
  | .outbuf => 0x60
  | .xwin => 0x80

/-- The first offset after a region. -/
def Region.limit : Region → Nat
  | .ctrl => 0x20
  | .keybuf => 0x40
  | .noncebuf => 0x50
  | .outbuf => 0x80
  | .xwin => 0xC0

/-- The widths of a region, as a list. -/
def Region.widths : Region → List Nat
  | .ctrl => [4]
  | .keybuf => [1, 2, 4]
  | .noncebuf => [1, 2, 4]
  | .outbuf => [1, 2, 4]
  | .xwin => [4]

theorem regionOf_eq_some_iff_bounds (a : Nat) (r : Region) :
    regionOf a = some r ↔ r.base ≤ a ∧ a < r.limit := by
  rw [regionOf_eq_some_iff]
  cases r <;> simp [Region.base, Region.limit]

theorem Region.base_le_limit (r : Region) : r.base ≤ r.limit := by
  cases r <;> decide

theorem Region.takesWidth_iff_mem_widths {r : Region} {n : Nat} :
    r.takesWidth n = true ↔ n ∈ r.widths := by
  cases r <;> simp [Region.takesWidth, Region.widths, or_assoc]

theorem Region.pos_of_takesWidth {r : Region} {n : Nat} (h : r.takesWidth n = true) : 0 < n := by
  rcases Nat.eq_zero_or_pos n with rfl | hn
  · cases r <;> cases h
  · exact hn

/-- All that makes an access legal: a width of the region, alignment, the whole access inside the region,
and the register's rights. -/
theorem checkAccess_eq_some_iff {addr n : Nat} {d : Dir} {r : Region} :
    checkAccess addr n d = some r ↔
      r.takesWidth n = true ∧ addr % n = 0 ∧ r.base ≤ addr ∧ addr + n ≤ r.limit ∧
        rightsOk addr d = true := by
  constructor
  · intro h
    obtain ⟨hfirst, hw, hal, hlast, hr⟩ := checkAccess_eq_some h
    have hpos := Region.pos_of_takesWidth hw
    rw [regionOf_eq_some_iff_bounds] at hfirst hlast
    exact ⟨hw, hal, hfirst.1, by omega, hr⟩
  · rintro ⟨hw, hal, hlo, hhi, hr⟩
    have hpos := Region.pos_of_takesWidth hw
    have hfirst : regionOf addr = some r := (regionOf_eq_some_iff_bounds _ _).2 ⟨hlo, by omega⟩
    have hlast : regionOf (addr + n - 1) = some r :=
      (regionOf_eq_some_iff_bounds _ _).2 ⟨by omega, by omega⟩
    simp [checkAccess, hfirst, hw, hal, hlast, hr]

/-- The offset of a legal access lies in the region the check answers. -/
theorem checkAccess_bounds {addr n : Nat} {d : Dir} {r : Region} (h : checkAccess addr n d = some r) :
    r.base ≤ addr ∧ addr < r.limit :=
  (regionOf_eq_some_iff_bounds addr r).1 (checkAccess_eq_some h).1

/-! ### The rights of R35 -/

theorem rightsOk_rd_iff {addr : Nat} : rightsOk addr .rd = true ↔ addr ≠ 0x00 := bne_iff_ne

theorem rightsOk_wr_iff {addr : Nat} :
    rightsOk addr .wr = true ↔ addr ≠ 0x04 ∧ addr ≠ 0x08 ∧ addr ≠ 0x0C ∧ addr ≠ 0x1C := by
  simp [rightsOk, and_assoc]

/-- Only control registers are read-only or write-only. -/
theorem rightsOk_of_le {addr : Nat} (d : Dir) (h : 0x20 ≤ addr) : rightsOk addr d = true := by
  cases d with
  | rd => exact rightsOk_rd_iff.2 (by omega)
  | wr => exact rightsOk_wr_iff.2 (by omega)

theorem Region.le_base_of_ne_ctrl {r : Region} (h : r ≠ .ctrl) : 0x20 ≤ r.base := by
  cases r with
  | ctrl => exact absurd rfl h
  | keybuf | noncebuf | outbuf | xwin => decide

/-- An aligned access at a width of a buffer or of XWIN, inside it, is legal in both directions. -/
theorem checkAccess_of_ne_ctrl {addr n : Nat} {r : Region} (d : Dir) (hr : r ≠ .ctrl)
    (hw : r.takesWidth n = true) (hal : addr % n = 0) (hlo : r.base ≤ addr) (hhi : addr + n ≤ r.limit) :
    checkAccess addr n d = some r :=
  checkAccess_eq_some_iff.2
    ⟨hw, hal, hlo, hhi, rightsOk_of_le d ((Region.le_base_of_ne_ctrl hr).trans hlo)⟩

theorem checkAccess_eq_ctrl_iff {addr n : Nat} {d : Dir} :
    checkAccess addr n d = some .ctrl ↔
      n = 4 ∧ addr % n = 0 ∧ addr + n ≤ 0x20 ∧ rightsOk addr d = true := by
  simp [checkAccess_eq_some_iff, Region.takesWidth, Region.base, Region.limit]

/-! ### Legality is membership in the rows of R33's map (20_memory.md R34, R35) -/

/-- The row of a region in R33's map: first offset, size, widths. -/
def Region.row (r : Region) : Nat × Nat × List Nat := (r.base, r.limit - r.base, r.widths)

/-- The rows above CTRL, which reads and writes share. -/
def dataRows : List (Nat × Nat × List Nat) :=
  [Region.keybuf, Region.noncebuf, Region.outbuf, Region.xwin].map Region.row

theorem readableRows_eq : readableRows = (0x04, 28, [4]) :: dataRows := rfl

theorem writableRows_eq : writableRows = (0x00, 4, [4]) :: (0x10, 12, [4]) :: dataRows := rfl

theorem legalIn_cons {row : Nat × Nat × List Nat} {rows : List (Nat × Nat × List Nat)} {addr n : Nat} :
    LegalIn (row :: rows) addr n ↔
      (n ∈ row.2.2 ∧ addr % n = 0 ∧ row.1 ≤ addr ∧ addr + n ≤ row.1 + row.2.1) ∨
        LegalIn rows addr n :=
  List.exists_mem_cons_iff ..

/-- An access lies in a row above CTRL exactly where the check answers another region than CTRL. -/
theorem legalIn_dataRows_iff {addr n : Nat} (d : Dir) :
    LegalIn dataRows addr n ↔ ∃ r, r ≠ .ctrl ∧ checkAccess addr n d = some r := by
  have hmem : ∀ r : Region, r ∈ [Region.keybuf, .noncebuf, .outbuf, .xwin] ↔ r ≠ .ctrl := by
    intro r; cases r <;> decide
  simp only [LegalIn, dataRows, List.mem_map, exists_exists_and_eq_and, hmem, Region.row]
  refine exists_congr fun r => and_congr_right fun hr => ?_
  rw [← Region.takesWidth_iff_mem_widths, Nat.add_sub_cancel' r.base_le_limit]
  constructor
  · rintro ⟨hw, hal, hlo, hhi⟩
    exact checkAccess_of_ne_ctrl d hr hw hal hlo hhi
  · intro h
    obtain ⟨hw, hal, hlo, hhi, -⟩ := checkAccess_eq_some_iff.1 h
    exact ⟨hw, hal, hlo, hhi⟩

/-- A legal access is one of CTRL or lies in a row above it. -/
theorem exists_checkAccess_iff {addr n : Nat} {d : Dir} :
    (∃ r, checkAccess addr n d = some r) ↔
      checkAccess addr n d = some .ctrl ∨ LegalIn dataRows addr n := by
  rw [legalIn_dataRows_iff d]
  constructor
  · rintro ⟨r, h⟩
    by_cases hr : r = .ctrl
    · exact .inl (hr ▸ h)
    · exact .inr ⟨r, hr, h⟩
  · rintro (h | ⟨r, -, h⟩)
    · exact ⟨_, h⟩
    · exact ⟨r, h⟩

/-- The legal reads: in CTRL, the seven registers after CMD. -/
theorem legalIn_readableRows_iff {addr n : Nat} :
    LegalIn readableRows addr n ↔ ∃ r, checkAccess addr n .rd = some r := by
  rw [readableRows_eq, legalIn_cons, exists_checkAccess_iff, checkAccess_eq_ctrl_iff, rightsOk_rd_iff]
  refine or_congr_left ?_
  rw [List.mem_singleton]
  refine and_congr_right fun hn => ?_
  subst hn
  dsimp only
  omega

/-- The legal writes: in CTRL, CMD and the three length registers. -/
theorem legalIn_writableRows_iff {addr n : Nat} :
    LegalIn writableRows addr n ↔ ∃ r, checkAccess addr n .wr = some r := by
  rw [writableRows_eq, legalIn_cons, legalIn_cons, ← or_assoc, exists_checkAccess_iff,
    checkAccess_eq_ctrl_iff, rightsOk_wr_iff]
  refine or_congr_left ?_
  rw [List.mem_singleton, ← and_or_left]
  refine and_congr_right fun hn => ?_
  subst hn
  dsimp only
  omega

/-! ### What an access answers, check by check (20_memory.md R31, R32) -/

section Answers

variable {addr n : Nat} {s : State} {r : Region}

theorem memRead_of_illegal (h : checkAccess addr n .rd = none) :
    memRead addr n s = .error .badAccess := by
  simp only [memRead, h]

theorem memWrite_of_illegal (v : Word32) (h : checkAccess addr n .wr = none) :
    memWrite addr n v s = .error .badAccess := by
  simp only [memWrite, h]

theorem memRead_of_busy (h : checkAccess addr n .rd = some r) (hr : r ≠ .ctrl)
    (hb : s.status.busy = true) : memRead addr n s = .error .busyAccess := by
  simp [memRead, h, busyOk, hb, hr]

theorem memWrite_of_busy (v : Word32) (h : checkAccess addr n .wr = some r)
    (hb : s.status.busy = true) : memWrite addr n v s = .error .busyAccess := by
  simp [memWrite, h, busyOk, hb]

theorem memRead_of_idle_some {v : Word32} (h : checkAccess addr n .rd = some r)
    (hb : s.status.busy = false) (hv : regionRead s r addr n = some v) :
    memRead addr n s = .ok v := by
  simp [memRead, h, busyOk, hb, hv]

theorem memRead_of_idle_none (h : checkAccess addr n .rd = some r)
    (hb : s.status.busy = false) (hv : regionRead s r addr n = none) :
    memRead addr n s = .error .unwritten := by
  simp [memRead, h, busyOk, hb, hv]

theorem memWrite_of_idle (v : Word32) (h : checkAccess addr n .wr = some r)
    (hb : s.status.busy = false) : memWrite addr n v s = .ok (regionWrite s r addr n v) := by
  simp [memWrite, h, busyOk, hb]

/-- A read raises BAD_ACCESS for no other reason than its legality. -/
theorem memRead_eq_badAccess_iff :
    memRead addr n s = .error .badAccess ↔ checkAccess addr n .rd = none := by
  refine ⟨fun h => ?_, memRead_of_illegal⟩
  unfold memRead at h
  split at h
  · assumption
  · split at h
    · split at h <;> cases h
    · cases h

/-- A write raises BAD_ACCESS for no other reason than its legality. -/
theorem memWrite_eq_badAccess_iff (v : Word32) :
    memWrite addr n v s = .error .badAccess ↔ checkAccess addr n .wr = none := by
  refine ⟨fun h => ?_, memWrite_of_illegal v⟩
  unfold memWrite at h
  split at h
  · assumption
  · split at h <;> cases h

end Answers

theorem memRead_eq_badAccess_iff_not_legalIn (addr n : Nat) (s : State) :
    memRead addr n s = .error .badAccess ↔ ¬ LegalIn readableRows addr n := by
  rw [memRead_eq_badAccess_iff, legalIn_readableRows_iff, Option.eq_none_iff_forall_ne_some, not_exists]

theorem memWrite_eq_badAccess_iff_not_legalIn (addr n : Nat) (v : Word32) (s : State) :
    memWrite addr n v s = .error .badAccess ↔ ¬ LegalIn writableRows addr n := by
  rw [memWrite_eq_badAccess_iff, legalIn_writableRows_iff, Option.eq_none_iff_forall_ne_some, not_exists]

/-- Settles O43: BAD_ACCESS comes from the legality check alone, and the check passes exactly inside the
rows of R33's map. -/
theorem illegalAccessesAreExactlyTheBadOnes : Obligations.IllegalAccessesAreExactlyTheBadOnes :=
  fun addr n v s =>
    ⟨memRead_eq_badAccess_iff_not_legalIn addr n s, memWrite_eq_badAccess_iff_not_legalIn addr n v s⟩

/-! ### While the engine is busy (20_memory.md R40) -/

theorem memWrite_legal_of_busy {addr n : Nat} {s : State} (v : Word32) (hb : s.status.busy = true)
    (h : LegalIn writableRows addr n) : memWrite addr n v s = .error .busyAccess := by
  obtain ⟨r, hr⟩ := legalIn_writableRows_iff.1 h
  exact memWrite_of_busy v hr hb

/-- From 0x20 on, a legal read is one of a buffer or of XWIN, which a busy engine closes. -/
theorem memRead_legal_of_busy {addr n : Nat} {s : State} (hb : s.status.busy = true)
    (h : LegalIn readableRows addr n) (hlo : 0x20 ≤ addr) : memRead addr n s = .error .busyAccess := by
  obtain ⟨r, hr⟩ := legalIn_readableRows_iff.1 h
  refine memRead_of_busy hr ?_ hb
  rintro rfl
  exact absurd hlo (Nat.not_le.2 (checkAccess_bounds hr).2)

@[simp] theorem Status.issued_word : Status.issued.word = 0x00000001#32 := by decide

/-- STATUS reads BUSY alone after an issue (60_exceptions.md R110). -/
theorem memRead_status_issue (s : State) (v : Word32) :
    memRead 0x04 4 (s.issue v) = .ok 0x00000001#32 := by
  rw [memRead_status, State.issue_status, Status.issued_word]

theorem memRead_einfo0 (s : State) : memRead 0x08 4 s = .ok s.einfo0 :=
  memRead_ctrl s (by decide) (by decide) (by decide)

theorem memRead_einfo1 (s : State) : memRead 0x0C 4 s = .ok s.einfo1 :=
  memRead_ctrl s (by decide) (by decide) (by decide)

theorem memRead_outLen (s : State) : memRead 0x10 4 s = .ok s.outLen :=
  memRead_ctrl s (by decide) (by decide) (by decide)

theorem memRead_keyLen (s : State) : memRead 0x14 4 s = .ok s.keyLen :=
  memRead_ctrl s (by decide) (by decide) (by decide)

theorem memRead_nonceLen (s : State) : memRead 0x18 4 s = .ok s.nonceLen :=
  memRead_ctrl s (by decide) (by decide) (by decide)

/-- Settles O52: legality is tested before BUSY, so an illegal access keeps its own fault; a legal one is
stopped by BUSY unless it reads a control register. -/
theorem aBusyEngineNarrowsTheHost : Obligations.ABusyEngineNarrowsTheHost :=
  fun s addr n v hb =>
    ⟨memWrite_legal_of_busy v hb, memRead_legal_of_busy hb,
      (memWrite_eq_badAccess_iff_not_legalIn addr n v s).2,
      (memRead_eq_badAccess_iff_not_legalIn addr n s).2,
      memRead_status s, memRead_einfo0 s, memRead_einfo1 s, memRead_outLen s, memRead_keyLen s,
      memRead_nonceLen s, memRead_params s,
      fun u => ⟨memRead_status_issue u v, memRead_einfo0 (u.issue v), memRead_einfo1 (u.issue v)⟩⟩

/-! ### The buffers (20_memory.md R36, R37) -/

/-- The three regions of bytes. -/
def Region.isBuffer : Region → Bool
  | .ctrl => false
  | .keybuf => true
  | .noncebuf => true
  | .outbuf => true
  | .xwin => false

theorem regionRead_of_isBuffer {r : Region} (s : State) (addr n : Nat) (h : r.isBuffer = true) :
    regionRead s r addr n = loadLE s.mem addr n := by
  cases r with
  | keybuf | noncebuf | outbuf => rfl
  | ctrl | xwin => cases h

/-- An aligned access of 1, 2 or 4 bytes inside one buffer is legal in both directions. -/
theorem checkAccess_of_isBuffer {addr n : Nat} {r : Region} (d : Dir) (hbuf : r.isBuffer = true)
    (hn : n ∈ [1, 2, 4]) (hal : addr % n = 0) (hlo : r.base ≤ addr) (hhi : addr + n ≤ r.limit) :
    checkAccess addr n d = some r := by
  cases r with
  | keybuf | noncebuf | outbuf =>
    exact checkAccess_of_ne_ctrl d (by decide) (Region.takesWidth_iff_mem_widths.2 hn) hal hlo hhi
  | ctrl | xwin => cases hbuf

/-- A naturally aligned access inside the buffers' part of the window lies in one buffer: none straddles
0x40, where KEYBUF ends and NONCEBUF begins. -/
theorem checkAccess_buffer {addr n : Nat} (d : Dir) (hn : n ∈ [1, 2, 4]) (hal : addr % n = 0)
    (hin : (0x20 ≤ addr ∧ addr + n ≤ 0x50) ∨ (0x60 ≤ addr ∧ addr + n ≤ 0x80)) :
    ∃ r : Region, r.isBuffer = true ∧ checkAccess addr n d = some r := by
  have hsplit : (0x20 ≤ addr ∧ addr + n ≤ 0x40) ∨ (0x40 ≤ addr ∧ addr + n ≤ 0x50) ∨
      (0x60 ≤ addr ∧ addr + n ≤ 0x80) := by
    simp only [List.mem_cons, List.not_mem_nil, or_false] at hn
    rcases hn with rfl | rfl | rfl <;> omega
  rcases hsplit with ⟨hlo, hhi⟩ | ⟨hlo, hhi⟩ | ⟨hlo, hhi⟩
  · exact ⟨.keybuf, rfl, checkAccess_of_isBuffer d rfl hn hal hlo hhi⟩
  · exact ⟨.noncebuf, rfl, checkAccess_of_isBuffer d rfl hn hal hlo hhi⟩
  · exact ⟨.outbuf, rfl, checkAccess_of_isBuffer d rfl hn hal hlo hhi⟩

/-- A load of `n` bytes is below `2^(8n)`. -/
theorem toNat_loadLE_lt {m : Memory} {off n : Nat} {v : Word32} (h : loadLE m off n = some v) :
    v.toNat < 2 ^ (8 * n) :=
  Nat.lt_pow_two_of_testBit _ fun i hi => getLsbD_loadLE h i hi

/-- A load has no value where one of its bytes holds `⊥`. -/
theorem loadLE_eq_none {m : Memory} {off n : Nat} (h : ∃ j < n, m.read (off + j) = none) :
    loadLE m off n = none := by
  obtain ⟨j, hj, hnone⟩ := h
  rw [← Option.not_isSome_iff_eq_none, loadLE_isSome_iff]
  intro hall
  simpa [hnone] using hall j hj

/-- Settles O44: an aligned access inside the buffers lies in one of them, and its read is a little-endian
load of the buffer's bytes. -/
theorem bufferReadsAreLittleEndian : Obligations.BufferReadsAreLittleEndian := by
  intro s addr n hb hn hal hin
  obtain ⟨r, hbuf, hr⟩ := checkAccess_buffer .rd hn hal hin
  have hread : regionRead s r addr n = loadLE s.mem addr n := regionRead_of_isBuffer s addr n hbuf
  have hn4 : n ≤ 4 := (by decide : ∀ k ∈ [1, 2, 4], k ≤ 4) n hn
  constructor
  · intro hall
    obtain ⟨v, hv⟩ := Option.isSome_iff_exists.1 ((loadLE_isSome_iff s.mem addr n).2 hall)
    refine ⟨v, memRead_of_idle_some hr hb (hread.trans hv), toNat_loadLE_lt hv,
      byteOf_loadLE hn4 hv, ?_⟩
    rintro rfl
    exact hv
  · intro hnone
    exact memRead_of_idle_none hr hb (hread.trans (loadLE_eq_none hnone))

/-! ### The state words in XWIN (20_memory.md R39) -/

theorem xwinIdx_word (i : WordIdx) : xwinIdx (0x80 + 4 * i.val) = i := by
  apply Fin.ext
  simp only [xwinIdx, xwinBase, Fin.val_ofNat]
  omega

theorem checkAccess_xwin (i : WordIdx) (d : Dir) : checkAccess (0x80 + 4 * i.val) 4 d = some .xwin := by
  refine checkAccess_of_ne_ctrl d (by decide) rfl ?_ ?_ ?_
  · omega
  · simp only [Region.base]; omega
  · simp only [Region.limit]; omega

/-- XWIN takes words only. -/
theorem checkAccess_xwin_narrow {addr n : Nat} (d : Dir) (hlo : 0x80 ≤ addr) (hn : n ≠ 4) :
    checkAccess addr n d = none := by
  rw [Option.eq_none_iff_forall_ne_some]
  intro r h
  have hlimit := (checkAccess_bounds h).2
  have hw := Region.takesWidth_iff_mem_widths.1 (checkAccess_eq_some_iff.1 h).1
  cases r with
  | ctrl | keybuf | noncebuf | outbuf => simp only [Region.limit] at hlimit; omega
  | xwin => exact hn (List.mem_singleton.1 hw)

theorem regionRead_xwin (s : State) (i : WordIdx) :
    regionRead s .xwin (0x80 + 4 * i.val) 4 = s.readX i := by
  rw [regionRead, xwinIdx_word]

theorem regionWrite_xwin (s : State) (i : WordIdx) (v : Word32) :
    regionWrite s .xwin (0x80 + 4 * i.val) 4 v = s.writeX i v := by
  rw [regionWrite, xwinIdx_word]

/-- A word write through XWIN of an idle engine is a write of the state word. -/
theorem memWrite_xwin {s : State} (i : WordIdx) (v : Word32) (hb : s.status.busy = false) :
    memWrite (0x80 + 4 * i.val) 4 v s = .ok (s.writeX i v) := by
  rw [memWrite_of_idle v (checkAccess_xwin i .wr) hb, regionWrite_xwin]

theorem sameWordsBut_writeX (s : State) (i : WordIdx) (v : Word32) :
    SameWordsBut [i] s (s.writeX i v) := by
  intro j hj
  rw [State.readX_writeX, if_neg fun h => hj (List.mem_singleton.2 h.symm)]

theorem sameControl_writeX (s : State) (i : WordIdx) (v : Word32) : SameControl s (s.writeX i v) :=
  ⟨rfl, rfl, rfl, rfl, rfl, rfl, rfl, rfl, rfl⟩

/-- Settles O48: a word access at 0x80 + 4i reaches X[i]; a byte or a halfword has no width there. -/
theorem xwinReachesTheStateWords : Obligations.XwinReachesTheStateWords := by
  intro s i v
  refine ⟨fun hb => ⟨fun w hw => ?_, fun hnone => ?_, s.writeX i v, memWrite_xwin i v hb, ?_,
    sameWordsBut_writeX s i v, rfl, rfl, sameControl_writeX s i v⟩, fun o n hn => ?_⟩
  · exact memRead_of_idle_some (checkAccess_xwin i .rd) hb ((regionRead_xwin s i).trans hw)
  · exact memRead_of_idle_none (checkAccess_xwin i .rd) hb ((regionRead_xwin s i).trans hnone)
  · rw [State.readX_writeX, if_pos rfl]
  · have hill : ∀ d, checkAccess (0x80 + 4 * i.val + o % 4) n d = none := fun d =>
      checkAccess_xwin_narrow d (by omega) (by omega)
    exact ⟨memRead_of_illegal (hill .rd), memWrite_of_illegal v (hill .wr)⟩

end Sys2Proof.Machine
end

section
/-! PROOF. Which words decode, by the opcode map and by the fields (30_encoding.md R54 to R58), and what
the engine step of any other word does (60_exceptions.md R117): O8 and O9. -/

namespace Sys2Proof.Machine

/-! ### A decoded word and its row of the map (R54) -/

/-- The word of a command matches the command's row, whatever its operands. -/
theorem encode_and_mask (i : Instr) : encode i &&& i.mask = i.matchWord :=
  match i with
  | .nop => Laws.Encoding.nop
  | .loadc => Laws.Encoding.loadc
  | .loadk => Laws.Encoding.loadk
  | .loadn => Laws.Encoding.loadn
  | .load => Laws.Encoding.load
  | .qr a b c d => Laws.Encoding.qr a b c d
  | .colround => Laws.Encoding.colround
  | .rowround => Laws.Encoding.rowround
  | .dround => Laws.Encoding.dround
  | .permute => Laws.Encoding.permute
  | .extract => Laws.Encoding.extract
  | .run => Laws.Encoding.run

/-- The row of every command stands in the map. -/
theorem mask_matchWord_mem_opcodeMap (i : Instr) : (i.mask, i.matchWord) ∈ opcodeMap := by
  cases i <;> simp [opcodeMap, Instr.mask, Instr.matchWord]

theorem encode_of_decode_eq_ok {v : Word32} {i : Instr} (h : decode v = .ok i) : encode i = v := by
  rcases decode_eq_ok h with ⟨hopc, hres, -, rfl⟩ | ⟨-, hres, hrow⟩
  · exact qrWord_fields hopc hres
  · exact (plainCommands_lookup hrow).2.trans (plainWord_opcodeField hres)

theorem and_mask_of_decode_eq_ok {v : Word32} {i : Instr} (h : decode v = .ok i) :
    v &&& i.mask = i.matchWord := by
  have hrow := encode_and_mask i
  rwa [encode_of_decode_eq_ok h] at hrow

/-! ### At most one row (R54) -/

/-- Every mask covers the opcode byte, and every match is zero outside it. -/
theorem match_eq_opcode_byte {v : Word32} {r : Word32 × Word32} (hr : r ∈ opcodeMap)
    (h : v &&& r.1 = r.2) : r.2 = v &&& 0x000000FF#32 := by
  have hmask : ∀ r ∈ opcodeMap, r.1 &&& 0x000000FF#32 = 0x000000FF#32 ∧
      r.2 &&& 0x000000FF#32 = r.2 := by simp [opcodeMap]
  obtain ⟨hcovers, hbyte⟩ := hmask r hr
  rw [← hbyte, ← h, BitVec.and_assoc, hcovers]

/-- The match words of the twelve rows are distinct, so a word's opcode byte picks one row. -/
theorem length_filter_opcodeMap_le_one (v : Word32) :
    (opcodeMap.filter fun r => v &&& r.1 = r.2).length ≤ 1 := by
  have hdistinct : (opcodeMap.map Prod.snd).Nodup := by decide
  calc (opcodeMap.filter fun r => v &&& r.1 = r.2).length
      = opcodeMap.countP fun r => v &&& r.1 = r.2 := List.countP_eq_length_filter.symm
    _ ≤ opcodeMap.countP ((· == v &&& 0x000000FF#32) ∘ Prod.snd) :=
        List.countP_mono_left fun r hr h => by
          simpa using match_eq_opcode_byte hr (of_decide_eq_true h)
    _ = (opcodeMap.map Prod.snd).count (v &&& 0x000000FF#32) := List.countP_map.symm
    _ ≤ 1 := List.nodup_iff_count_le_one.1 hdistinct _

/-! ### The row of QR and the index fields (R52, R58) -/

/-- The row of QR fixes the opcode and the reserved bits of format Q. -/
theorem and_qrMask_eq_iff (v : Word32) :
    v &&& 0xFF0000FF#32 = 0x00000008#32 ↔ opcodeField v = qrOpcode ∧ reservedQ v = 0#8 := by
  constructor
  · intro h
    have hopc : opcodeField (v &&& 0xFF0000FF#32) = opcodeField v := by
      rw [opcodeField, BitVec.extractLsb'_and]
      exact BitVec.and_allOnes
    have hres : reservedQ (v &&& 0xFF0000FF#32) = reservedQ v := by
      rw [reservedQ, BitVec.extractLsb'_and]
      exact BitVec.and_allOnes
    rw [← hopc, ← hres, h]
    decide
  · rintro ⟨hopc, hres⟩
    rw [← qrWord_fields hopc hres]
    exact encode_and_mask (.qr _ _ _ _)

theorem pairwiseDistinct_fields_iff (v : Word32) :
    pairwiseDistinct (fieldA v) (fieldB v) (fieldC v) (fieldD v) = true ↔ DistinctIndexFields v := by
  rw [pairwiseDistinct_iff, ← List.nodup_map_iff Fin.val_injective]
  simp only [List.map_cons, List.map_nil, fieldA_val, fieldB_val, fieldC_val, fieldD_val]

/-- The format-Q branch of R55 on a word with no reserved bit and distinct indices. -/
theorem decode_of_qrFields {v : Word32} (hopc : opcodeField v = qrOpcode) (hres : reservedQ v = 0#8)
    (hdist : DistinctIndexFields v) :
    decode v = .ok (.qr (fieldA v) (fieldB v) (fieldC v) (fieldD v)) := by
  rw [decode, if_pos hopc, decodeQr, if_neg (not_not_intro hres),
    if_pos ((pairwiseDistinct_fields_iff v).2 hdist)]

/-- A row that a lookup finds has an opcode of format N (R54). -/
theorem opcode_mem_of_lookup {o : BitVec 8} {i : Instr} (h : plainCommands.lookup o = some i) :
    o.toNat ∈ [0x00, 0x01, 0x02, 0x03, 0x04, 0x09, 0x0A, 0x0B, 0x0C, 0x10, 0x20] := by
  obtain ⟨before, after, hrows, -⟩ := List.lookup_eq_some_iff.1 h
  have hmem : (o, i) ∈ plainCommands := by simp [hrows]
  exact List.mem_map_of_mem (f := fun r => r.1.toNat) hmem

/-- The fields of a word that decodes, as numbers: a QR or a format-N word, no reserved bit set. -/
theorem fields_of_decode_eq_ok {v : Word32} {i : Instr} (h : decode v = .ok i) :
    (v.toNat % 256 = 0x08 ∧ v.toNat / 16777216 = 0 ∧ DistinctIndexFields v) ∨
    (v.toNat % 256 ∈ [0x00, 0x01, 0x02, 0x03, 0x04, 0x09, 0x0A, 0x0B, 0x0C, 0x10, 0x20] ∧
      v.toNat / 256 = 0) := by
  rcases decode_eq_ok h with ⟨hopc, hres, hdist, -⟩ | ⟨-, hres, hrow⟩
  · left
    rw [← opcodeField_toNat, ← reservedQ_toNat, hopc, hres]
    exact ⟨rfl, rfl, (pairwiseDistinct_fields_iff v).1 hdist⟩
  · right
    rw [← opcodeField_toNat, ← reservedN_toNat, hres]
    exact ⟨opcode_mem_of_lookup hrow, rfl⟩

/-! ### Illegal words by the map (R54, R55, R58) -/

theorem exists_decode_error_iff (v : Word32) :
    (∃ e, decode v = .error e) ↔ ¬ ∃ i, decode v = .ok i := by
  cases decode v <;> simp

theorem spellsNothing_eq_false_iff (v : Word32) :
    spellsNothing v = false ↔ ∃ i, decode v = .ok i := by
  unfold spellsNothing
  cases decode v <;> simp

/-- A row other than QR's is one word, and that word spells a command. -/
theorem row_cases {r : Word32 × Word32} (hr : r ∈ opcodeMap) :
    r = (0xFF0000FF#32, 0x00000008#32) ∨ r.1 = BitVec.allOnes 32 ∧ spellsNothing r.2 = false := by
  have hall : (opcodeMap.all fun r => r == (0xFF0000FF#32, 0x00000008#32) ||
      r.1 == BitVec.allOnes 32 && !spellsNothing r.2) = true := by decide
  simpa using List.all_eq_true.1 hall r hr

/-- A word decodes exactly where a row matches it and, where that is QR's row, its indices are distinct. -/
theorem exists_decode_ok_iff (v : Word32) :
    (∃ i, decode v = .ok i) ↔ (∃ r ∈ opcodeMap, v &&& r.1 = r.2) ∧
      (v &&& 0xFF0000FF#32 = 0x00000008#32 → DistinctIndexFields v) := by
  constructor
  · rintro ⟨i, h⟩
    refine ⟨⟨_, mask_matchWord_mem_opcodeMap i, and_mask_of_decode_eq_ok h⟩, fun hqr => ?_⟩
    have hopc := opcodeField_toNat v
    rw [((and_qrMask_eq_iff v).1 hqr).1] at hopc
    rcases fields_of_decode_eq_ok h with ⟨-, -, hdist⟩ | ⟨hplain, -⟩
    · exact hdist
    · rw [← hopc] at hplain
      exact absurd hplain (by decide)
  · rintro ⟨⟨r, hr, hmatch⟩, hdist⟩
    rcases row_cases hr with rfl | ⟨hones, hspells⟩
    · obtain ⟨hopc, hres⟩ := (and_qrMask_eq_iff v).1 hmatch
      exact ⟨_, decode_of_qrFields hopc hres (hdist hmatch)⟩
    · rw [hones, BitVec.and_allOnes] at hmatch
      rw [hmatch]
      exact (spellsNothing_eq_false_iff r.2).1 hspells

/-- Settles O8: each mask covers the opcode byte and the twelve matches differ there; a decoded word is
its command's encoding; the rows' words decode, QR's where the indices are distinct. -/
theorem decodingFollowsTheOpcodeMap : Obligations.DecodingFollowsTheOpcodeMap := by
  intro v
  refine ⟨length_filter_opcodeMap_le_one v, fun _ => and_mask_of_decode_eq_ok, ?_⟩
  rw [exists_decode_error_iff, exists_decode_ok_iff, not_and_or, Classical.not_imp]
  simp only [not_exists, not_and]

/-! ### The engine step of an illegal word (60_exceptions.md R117) -/

theorem engineStep_of_decode_error {s : State} {v : Word32} {e : Illegal} (hs : s.cmdLatch = some v)
    (h : decode v = .error e) : engineStep s = .next (s.signalIllegal v) := by
  simp only [engineStep, hs, h]

theorem rejectedAtStep_of_decode_error {v : Word32} (h : ∃ e, decode v = .error e) :
    RejectedAtStep v := by
  obtain ⟨e, he⟩ := h
  exact fun s hs => engineStep_of_decode_error hs he

/-- STATUS after an ILLEGAL report, as the host reads it. -/
theorem Status.illegal_word :
    (⟨false, false, true, .illegal, .none⟩ : Status).word = 0x00000024#32 := by decide

theorem status_word_of_rejectedAtStep {v : Word32} {s t : State} (hv : RejectedAtStep v)
    (hs : s.cmdLatch = some v) (h : engineStep s = .next t) : t.status.word = 0x00000024#32 := by
  rw [hv s hs] at h
  cases h
  exact Status.illegal_word

/-- Settles O9: none of the four kinds of word has the fields of a word that decodes. -/
theorem reservedOpcodesBitsAndRepeatedIndicesAreIllegal :
    Obligations.ReservedOpcodesBitsAndRepeatedIndicesAreIllegal := by
  intro v hkind
  have hrej : RejectedAtStep v := by
    refine rejectedAtStep_of_decode_error ((exists_decode_error_iff v).2 ?_)
    rintro ⟨i, h⟩
    have hfields := fields_of_decode_eq_ok h
    simp only [List.mem_cons, List.not_mem_nil, or_false] at hkind hfields
    rcases hkind with hopc | ⟨hopc, hres⟩ | ⟨hopc, hres⟩ | ⟨hopc, hrep⟩
    · omega
    · omega
    · omega
    · rcases hfields with ⟨-, -, hdist⟩ | ⟨hplain, -⟩
      · exact hrep hdist
      · omega
  exact ⟨hrej, fun s t => status_word_of_rejectedAtStep hrej⟩

end Sys2Proof.Machine
end

section
/-! PROOF. The loader family (40_codec_loader.md R70 to R73): what its writes put in each state word, what
they leave alone, and where its reads fault: O18, O19, O20 and O21. -/

namespace Sys2Proof.Machine

/-! ### The encoding of a format-N command (30_encoding.md R51, R57) -/

/-- A word of format N decodes with no reserved bit set, and with one set it is illegal. -/
theorem formatNWord_of_decode {opc : Nat} {i : Instr}
    (hopc : opc ∈ [0x00, 0x01, 0x02, 0x03, 0x04, 0x09, 0x0A, 0x0B, 0x0C, 0x10, 0x20])
    (h : decode (BitVec.ofNat 32 opc) = .ok i) : FormatNWord opc i :=
  ⟨h, fun v hv hres =>
    (reservedOpcodesBitsAndRepeatedIndicesAreIllegal v (.inr (.inl ⟨hv ▸ hopc, hres⟩))).1⟩

/-! ### A list of writes -/

/-- Values written in order to distinct positions: each position holds its value. -/
theorem State.readX_writeXs_zip (s : State) {ps : List WordIdx} {vs : List Word32} {i : Nat} {p : WordIdx}
    {v : Word32} (hd : ps.Nodup) (hl : ps.length ≤ vs.length) (hp : ps[i]? = some p)
    (hv : vs[i]? = some v) : (s.writeXs (ps.zip vs)).readX p = some v := by
  refine State.readX_writeXs_of_mem s _ _ _ ?_ ?_
  · rwa [List.map_fst_zip hl]
  · exact List.mem_of_getElem? (List.getElem?_zip_eq_some.2 ⟨hp, hv⟩)

/-- Values written to a list of positions change no word outside it. -/
theorem State.readX_writeXs_zip_of_notMem (s : State) {ps : List WordIdx} (vs : List Word32) {i : WordIdx}
    (hi : i ∉ ps) : (s.writeXs (ps.zip vs)).readX i = s.readX i := by
  refine State.readX_writeXs_of_notMem s _ _ fun h => hi ?_
  obtain ⟨p, hp, rfl⟩ := List.mem_map.1 h
  exact (List.of_mem_zip hp).1

/-- A command that only writes state words changes no byte and no register but BUSY and DONE. -/
theorem frame_writeXs_complete (s : State) (ws : List (WordIdx × Word32)) :
    SameBytes s (s.writeXs ws).complete ∧ CompletedFrom s (s.writeXs ws).complete ∧
      SameControl s (s.writeXs ws).complete := by
  refine ⟨fun a => ?_, ?_, ?_⟩
  · rw [State.complete_mem, State.writeXs_mem]
  · rw [CompletedFrom, State.complete_status, State.writeXs_status, Status.completed]
  · constructor <;> simp

/-- Completion writes STATUS only, so it can be put off until after any writes of state words. -/
theorem State.writeXs_complete (s : State) (ws : List (WordIdx × Word32)) :
    s.complete.writeXs ws = (s.writeXs ws).complete := by
  induction ws generalizing s with
  | nil => rfl
  | cons p ws ih => exact ih (s.writeX p.1 p.2)

/-! ### The three placements of R69 -/

@[simp] theorem State.placeConstants_mem (s : State) : s.placeConstants.mem = s.mem := s.writeXs_mem _

@[simp] theorem State.placeKey_mem (s : State) (k : Vector Word32 8) : (s.placeKey k).mem = s.mem :=
  s.writeXs_mem _

theorem State.readX_placeConstants (s : State) {i : Nat} {p : WordIdx} {v : Word32}
    (hp : cpos[i]? = some p) (hv : cval[i]? = some v) : s.placeConstants.readX p = some v :=
  s.readX_writeXs_zip (by decide) (by decide) hp hv

theorem State.readX_placeKey (s : State) (k : Vector Word32 8) (i : Fin 8) {p : WordIdx}
    (hp : kpos[i.val]? = some p) : (s.placeKey k).readX p = some k[i] :=
  s.readX_writeXs_zip (by decide) (by simp [kpos]) hp (by simp)

theorem State.readX_placeNonce (s : State) (n : Vector Word32 4) (i : Fin 4) {p : WordIdx}
    (hp : npos[i.val]? = some p) : (s.placeNonce n).readX p = some n[i] :=
  s.readX_writeXs_zip (by decide) (by simp [npos]) hp (by simp)

/-! ### LOADC (R70) -/

theorem execLoadc_eq (s : State) : exec .loadc s = .next s.placeConstants.complete := rfl

/-- Settles O18: LOADC reads nothing, so it completes in every state, with R69's constants written. -/
theorem loadcPlacesTheConstants : Obligations.LoadcPlacesTheConstants :=
  ⟨formatNWord_of_decode (by decide) (by decide), fun s =>
    ⟨s.placeConstants.complete, execLoadc_eq s, s.readX_placeConstants (i := 0) rfl rfl,
      s.readX_placeConstants (i := 1) rfl rfl, s.readX_placeConstants (i := 2) rfl rfl,
      s.readX_placeConstants (i := 3) rfl rfl, fun i hi => s.readX_writeXs_zip_of_notMem cval hi,
      frame_writeXs_complete s _⟩⟩

/-! ### LOADK (R71) -/

/-- Key word `i` is read little-endian at byte offset `4i` of KEYBUF. -/
theorem keyWords_getElem {s : State} {k : Vector Word32 8} (h : s.keyWords = some k) (i : Fin 8) :
    loadLE32 s.mem (keyBase + 4 * i.val) = some k[i] :=
  collect_eq_some_iff.1 h i

theorem execLoadk_fault {s : State} (h : ¬ s.keyWritten) : exec .loadk s = .fault .unwritten := by
  have hnone : s.keyWords = none := option_eq_none_of_not_exists (mt (keyWords_isSome_iff s).1 h)
  rw [exec, execLoadk, hnone, Option.map_none, endBody_none]

/-- Settles O19: the reads succeed exactly where the key bytes hold values, and word `i` goes to the
position `kpos[i]`. -/
theorem loadkPlacesTheKeyWords : Obligations.LoadkPlacesTheKeyWords := by
  refine ⟨formatNWord_of_decode (by decide) (by decide), fun s hs => ?_, fun s => execLoadk_fault⟩
  obtain ⟨k, hk⟩ := (keyWords_isSome_iff s).2 hs
  refine ⟨(s.placeKey k).complete, execLoadk_next hk, fun p hp => ?_,
    fun i hi => s.readX_writeXs_zip_of_notMem k.toList hi, frame_writeXs_complete s _⟩
  have hplace : ∃ i : Fin 8, p.1 = 4 * i.val ∧ kpos[i.val]? = some p.2 := by
    revert p
    decide
  obtain ⟨i, hoff, hpos⟩ := hplace
  rw [hoff]
  intro b0 b1 b2 b3 h0 h1 h2 h3
  have hword := (keyWords_getElem hk i).symm.trans (loadLE32_eq_wordOfBytes h0 h1 h2 h3)
  exact (s.readX_placeKey k i hpos).trans hword

/-! ### LOADN (R72) -/

/-- Nonce word `i` is read little-endian at byte offset `4i` of NONCEBUF. -/
theorem nonceWords_getElem {s : State} {n : Vector Word32 4} (h : s.nonceWords = some n) (i : Fin 4) :
    loadLE32 s.mem (nonceBase + 4 * i.val) = some n[i] :=
  collect_eq_some_iff.1 h i

theorem execLoadn_fault {s : State} (h : ¬ s.nonceWritten) : exec .loadn s = .fault .unwritten := by
  have hnone : s.nonceWords = none := option_eq_none_of_not_exists (mt (nonceWords_isSome_iff s).1 h)
  rw [exec, execLoadn, hnone, Option.map_none, endBody_none]

/-- Settles O20: the reads succeed exactly where the nonce bytes hold values, and word `i` goes to the
position `npos[i]`. -/
theorem loadnPlacesTheNonceWords : Obligations.LoadnPlacesTheNonceWords := by
  refine ⟨formatNWord_of_decode (by decide) (by decide), fun s hs => ?_, fun s => execLoadn_fault⟩
  obtain ⟨n, hn⟩ := (nonceWords_isSome_iff s).2 hs
  refine ⟨(s.placeNonce n).complete, execLoadn_next hn, fun p hp => ?_,
    fun i hi => s.readX_writeXs_zip_of_notMem n.toList hi, frame_writeXs_complete s _⟩
  have hplace : ∃ i : Fin 4, p.1 = 4 * i.val ∧ npos[i.val]? = some p.2 := by
    revert p
    decide
  obtain ⟨i, hoff, hpos⟩ := hplace
  rw [hoff]
  intro b0 b1 b2 b3 h0 h1 h2 h3
  have hword := (nonceWords_getElem hn i).symm.trans (loadLE32_eq_wordOfBytes h0 h1 h2 h3)
  exact (s.readX_placeNonce n i hpos).trans hword

/-! ### LOAD (R73) -/

/-- The state LOAD leaves, before it completes. -/
def State.placeAll (s : State) (k : Vector Word32 8) (n : Vector Word32 4) : State :=
  (s.placeConstants.placeKey k).placeNonce n

theorem execLoad_next {s : State} {k : Vector Word32 8} {n : Vector Word32 4} (hk : s.keyWords = some k)
    (hn : s.nonceWords = some n) : exec .load s = .next (s.placeAll k n).complete := by
  rw [execLoad_eq, loadBody_some hk hn, endBody_some, State.placeAll]

theorem execLoad_fault {s : State} (h : ¬ (s.keyWritten ∧ s.nonceWritten)) :
    exec .load s = .fault .unwritten := by
  rw [execLoad_eq, option_eq_none_of_not_exists (mt (loadBody_isSome_iff s).1 h), endBody_none]

section PlaceAll

variable (s : State) (k : Vector Word32 8) (n : Vector Word32 4)

/-- The three placements are one list of writes. -/
theorem State.placeAll_eq_writeXs : s.placeAll k n =
    s.writeXs (cpos.zip cval ++ kpos.zip k.toList ++ npos.zip n.toList) := by
  rw [State.placeAll, State.placeConstants, State.placeKey, State.placeNonce, State.writeXs_append,
    State.writeXs_append, List.append_assoc]

theorem State.readX_placeAll_cpos {i : Nat} {p : WordIdx} {v : Word32} (hp : cpos[i]? = some p)
    (hv : cval[i]? = some v) : (s.placeAll k n).readX p = some v := by
  have hother : ∀ p ∈ cpos, p ∉ kpos ∧ p ∉ npos := by decide
  obtain ⟨hkey, hnonce⟩ := hother p (List.mem_of_getElem? hp)
  calc (s.placeAll k n).readX p
      = (s.placeConstants.placeKey k).readX p := State.readX_writeXs_zip_of_notMem _ _ hnonce
    _ = s.placeConstants.readX p := State.readX_writeXs_zip_of_notMem _ _ hkey
    _ = some v := s.readX_placeConstants hp hv

theorem State.readX_placeAll_kpos (i : Fin 8) {p : WordIdx} (hp : kpos[i.val]? = some p) :
    (s.placeAll k n).readX p = some k[i] := by
  have hother : ∀ p ∈ kpos, p ∉ npos := by decide
  have hnonce := hother p (List.mem_of_getElem? hp)
  exact (State.readX_writeXs_zip_of_notMem _ _ hnonce).trans (State.readX_placeKey _ k i hp)

theorem State.readX_placeAll_npos (i : Fin 4) {p : WordIdx} (hp : npos[i.val]? = some p) :
    (s.placeAll k n).readX p = some n[i] :=
  State.readX_placeNonce _ n i hp

end PlaceAll

/-- The buffers' words depend on the buffers only. -/
theorem State.keyWords_congr {s t : State} (h : t.mem = s.mem) : t.keyWords = s.keyWords := by
  rw [State.keyWords, State.keyWords, h]

theorem State.nonceWords_congr {s t : State} (h : t.mem = s.mem) : t.nonceWords = s.nonceWords := by
  rw [State.nonceWords, State.nonceWords, h]

/-- LOADC, LOADK and LOADN in turn: the first two change no buffer, so the later reads find what
LOAD finds. -/
theorem execLoadc_execLoadk_execLoadn {s : State} {k : Vector Word32 8} {n : Vector Word32 4}
    (hk : s.keyWords = some k) (hn : s.nonceWords = some n) :
    andThen (andThen (exec .loadc s) (exec .loadk)) (exec .loadn) =
      .next (s.placeAll k n).complete := by
  have hkey : s.placeConstants.complete.keyWords = some k :=
    (State.keyWords_congr (by simp)).trans hk
  have hnonce : (s.placeConstants.complete.placeKey k).complete.nonceWords = some n :=
    (State.nonceWords_congr (by simp)).trans hn
  calc andThen (andThen (exec .loadc s) (exec .loadk)) (exec .loadn)
      = andThen (exec .loadk s.placeConstants.complete) (exec .loadn) := by rw [execLoadc_eq, andThen]
    _ = exec .loadn (s.placeConstants.complete.placeKey k).complete := by
        rw [execLoadk_next hkey, andThen]
    _ = .next ((s.placeConstants.complete.placeKey k).complete.placeNonce n).complete :=
        execLoadn_next hnonce
    _ = .next (s.placeAll k n).complete := by
        simp only [State.placeAll, State.placeKey, State.placeNonce, State.writeXs_complete,
          State.complete_complete]

/-- Settles O21: LOAD's reads succeed exactly where key and nonce hold values; its three placements do not
overlap, and completing between them changes nothing. -/
theorem loadFillsTheWholeState : Obligations.LoadFillsTheWholeState := by
  refine ⟨formatNWord_of_decode (by decide) (by decide), fun s hkey hnonce => ?_, fun s hkey hnonce => ?_,
    fun s => execLoad_fault⟩
  all_goals
    obtain ⟨k, hk⟩ := (keyWords_isSome_iff s).2 hkey
    obtain ⟨n, hn⟩ := (nonceWords_isSome_iff s).2 hnonce
  · refine ⟨(s.placeAll k n).complete, execLoad_next hk hn,
      s.readX_placeAll_cpos k n (i := 0) rfl rfl, s.readX_placeAll_cpos k n (i := 1) rfl rfl,
      s.readX_placeAll_cpos k n (i := 2) rfl rfl, s.readX_placeAll_cpos k n (i := 3) rfl rfl,
      fun p hp => ?_, ?_⟩
    · have hplace : (∃ i : Fin 8, p.1 = keyBase + 4 * i.val ∧ kpos[i.val]? = some p.2) ∨
          ∃ i : Fin 4, p.1 = nonceBase + 4 * i.val ∧ npos[i.val]? = some p.2 := by
        revert p
        decide
      intro b0 b1 b2 b3 h0 h1 h2 h3
      have hbytes := loadLE32_eq_wordOfBytes h0 h1 h2 h3
      rcases hplace with ⟨i, hoff, hpos⟩ | ⟨i, hoff, hpos⟩
      · rw [hoff, keyWords_getElem hk i] at hbytes
        exact (s.readX_placeAll_kpos k n i hpos).trans hbytes
      · rw [hoff, nonceWords_getElem hn i] at hbytes
        exact (s.readX_placeAll_npos k n i hpos).trans hbytes
    · rw [State.placeAll_eq_writeXs]
      exact frame_writeXs_complete s _
  · rw [execLoad_next hk hn, execLoadc_execLoadk_execLoadn hk hn]

end Sys2Proof.Machine
end

section
/-! PROOF. The quarter-round, QR and the two phases (41_permutation.md R80, R81, R83, R84): what they put in
each group of state words, what they leave alone, and where they fault: O23, O24, O26 and O27. -/

namespace Sys2Proof.Machine

/-! ### The quarter-round (R80) -/

/-- Settles O23: the model's updates are R80's, its rotation being the library's for these amounts. -/
theorem quarterRoundUpdatesAllFourWords : Obligations.QuarterRoundUpdatesAllFourWords := by
  intro a b c d
  refine ⟨_, _, _, _, rfl, rfl, rfl, rfl, ?_⟩
  simp (disch := decide) only [quarterRound, rotl32_eq_rotateLeft]

/-! ### The state words of a group (R82) -/

/-- The state words that a group names hold the four given values. -/
def State.HoldsGroup (s : State) (g : Group) (r : Word32 × Word32 × Word32 × Word32) : Prop :=
  s.readX g.1 = some r.1 ∧ s.readX g.2.1 = some r.2.1 ∧ s.readX g.2.2.1 = some r.2.2.1 ∧
    s.readX g.2.2.2 = some r.2.2.2

theorem State.holdsGroup_iff_holdsAt {s : State} {w : Words} (hw : s.allWords = some w) (g : Group)
    (r : Word32 × Word32 × Word32 × Word32) : s.HoldsGroup g r ↔ HoldsAt w g r := by
  have hread := (allWords_eq_some_iff s w).1 hw
  simp only [State.HoldsGroup, HoldsAt, hread, Option.some_inj]

theorem HoldsAt.groupMix_eq {w : Words} {g : Group} {wa wb wc wd : Word32}
    (h : HoldsAt w g (wa, wb, wc, wd)) : groupMix w g = quarterRound wa wb wc wd := by
  obtain ⟨ha, hb, hc, hd⟩ := h
  rw [groupMix, ha, hb, hc, hd]

/-! ### QR (R81) -/

theorem decode_qrWord {a b c d : WordIdx} (hn : [a, b, c, d].Nodup) :
    decode (qrWord a b c d) = .ok (.qr a b c d) := by
  obtain ⟨ha, hb, hc, hd⟩ := fields_qrWord a b c d
  have hdist : DistinctIndexFields (qrWord a b c d) := by
    rwa [← pairwiseDistinct_fields_iff, ha, hb, hc, hd, pairwiseDistinct_iff]
  rw [decode_of_qrFields (opcodeField_qrWord a b c d) (reservedQ_qrWord a b c d) hdist, ha, hb, hc, hd]

/-- The writes of a group's four words, in the group's order. -/
def groupWrites (g : Group) (r : Word32 × Word32 × Word32 × Word32) : List (WordIdx × Word32) :=
  [(g.1, r.1), (g.2.1, r.2.1), (g.2.2.1, r.2.2.1), (g.2.2.2, r.2.2.2)]

/-- Writing a group of distinct positions puts each value in its place. -/
theorem State.holdsGroup_writeXs (s : State) {g : Group} (hn : (groupWords g).Nodup)
    (r : Word32 × Word32 × Word32 × Word32) : (s.writeXs (groupWrites g r)).HoldsGroup g r := by
  have hread : ∀ p ∈ groupWrites g r, (s.writeXs (groupWrites g r)).readX p.1 = some p.2 :=
    fun p hp => s.readX_writeXs_of_mem _ _ _ hn hp
  simpa [State.HoldsGroup, groupWrites] using hread

theorem execQr_next {a b c d : WordIdx} {s : State} {wa wb wc wd : Word32} (hn : [a, b, c, d].Nodup)
    (h : s.HoldsGroup (a, b, c, d) (wa, wb, wc, wd)) : exec (.qr a b c d) s =
      .next (s.writeXs (groupWrites (a, b, c, d) (quarterRound wa wb wc wd))).complete := by
  obtain ⟨ha, hb, hc, hd⟩ := h
  rw [execQr_eq hn, qrBody_some ha hb hc hd, endBody_some, groupWrites]

/-- QR on four distinct written words completes and leaves their quarter-round in place. -/
theorem exists_execQr_next {a b c d : WordIdx} {s : State} {wa wb wc wd : Word32}
    (hn : [a, b, c, d].Nodup) (h : s.HoldsGroup (a, b, c, d) (wa, wb, wc, wd)) :
    ∃ t, exec (.qr a b c d) s = .next t ∧ t.HoldsGroup (a, b, c, d) (quarterRound wa wb wc wd) ∧
      SameWordsBut [a, b, c, d] s t ∧ SameBytes s t ∧ CompletedFrom s t ∧ SameControl s t :=
  ⟨_, execQr_next hn h, s.holdsGroup_writeXs (g := (a, b, c, d)) hn _,
    fun i hi => s.readX_writeXs_of_notMem _ i hi, frame_writeXs_complete s _⟩

/-- X[0] = 1 and X[1], X[2], X[3] = 0: the words of a QR that its reversed order mixes differently. -/
def oneThreeZeros : State := State.reset.writeXs (groupWrites (0, 1, 2, 3) (1#32, 0#32, 0#32, 0#32))

/-- From 1, 0, 0, 0 the quarter-round's `b'` is `rotl32(1, 7)`; from 0, 0, 0, 1 its `c'`, which the reversed
order leaves in the same word, is `rotl32(rotl32(1, 7), 9)`. -/
theorem execQr_order_matters : ∃ s t u : State,
    exec (.qr 0 1 2 3) s = .next t ∧ exec (.qr 3 2 1 0) s = .next u ∧ t.x ≠ u.x := by
  obtain ⟨h0, h1, h2, h3⟩ : oneThreeZeros.HoldsGroup (0, 1, 2, 3) (1#32, 0#32, 0#32, 0#32) :=
    State.reset.holdsGroup_writeXs (by decide) _
  obtain ⟨t, ht, ⟨-, ht1, -, -⟩, -⟩ :=
    exists_execQr_next (a := 0) (b := 1) (c := 2) (d := 3) (by decide) ⟨h0, h1, h2, h3⟩
  obtain ⟨u, hu, ⟨-, -, hu1, -⟩, -⟩ :=
    exists_execQr_next (a := 3) (b := 2) (c := 1) (d := 0) (by decide) ⟨h3, h2, h1, h0⟩
  refine ⟨oneThreeZeros, t, u, ht, hu, fun hx => ?_⟩
  rw [State.readX_eq, hx, ← State.readX_eq, hu1] at ht1
  exact absurd ht1 (by decide)

/-- Settles O24: the word's fields are the indices; a QR of distinct indices reads its four words, then
writes their quarter-round; and the two orders differ from X[0 .. 3] = 1, 0, 0, 0. -/
theorem qrMixesItsFourWords : Obligations.QrMixesItsFourWords := by
  refine ⟨fun a b c d hn => ?_, fun v hopc hbad => ?_, fun a b c d s wa wb wc wd hn ha hb hc hd => ?_,
    fun a b c d s => execQr_fault, execQr_order_matters⟩
  · rw [← qrWord_toNat, BitVec.ofNat_toNat, BitVec.setWidth_eq]
    exact decode_qrWord hn
  · refine (reservedOpcodesBitsAndRepeatedIndicesAreIllegal v (.inr (.inr ?_))).1
    exact hbad.imp (⟨hopc, ·⟩) (⟨hopc, ·⟩)
  · obtain ⟨t, ht, ⟨hta, htb, htc, htd⟩, hframe⟩ := exists_execQr_next hn ⟨ha, hb, hc, hd⟩
    exact ⟨t, ht, hta, htb, htc, htd, hframe⟩

/-! ### The two phases (R83, R84) -/

/-- A command that rewrites the sixteen words changes no byte and no register but BUSY and DONE. -/
theorem frame_setWords_complete (s : State) (w : Words) :
    SameBytes s (s.setWords w).complete ∧ CompletedFrom s (s.setWords w).complete ∧
      SameControl s (s.setWords w).complete := by
  refine ⟨fun a => ?_, ?_, ?_⟩
  · rw [State.complete_mem, State.setWords_mem]
  · rw [CompletedFrom, State.complete_status, State.setWords_status, Status.completed]
  · constructor <;> simp

/-- A phase leaves in each of its groups the quarter-round of the group's old words: its groups are
disjoint, so none reads what another wrote. -/
theorem IsPhase.holdsGroup {gs : List Group} (hp : IsPhase gs) {s : State} {w : Words}
    (hw : s.allWords = some w) {g : Group} (hg : g ∈ gs) {wa wb wc wd : Word32}
    (h : s.HoldsGroup g (wa, wb, wc, wd)) :
    (s.setWords (gs.foldl applyGroup w)).complete.HoldsGroup g (quarterRound wa wb wc wd) := by
  have hnew := (State.allWords_complete _).trans (allWords_setWords s (gs.foldl applyGroup w))
  rw [State.holdsGroup_iff_holdsAt hw] at h
  rw [State.holdsGroup_iff_holdsAt hnew, ← h.groupMix_eq]
  exact foldl_applyGroup_holdsAt gs w hp.distinct hp.disjoint g hg

/-- Settles O26: COLROUND rewrites the words with its phase of R82's columns. -/
theorem colroundMixesEachColumn : Obligations.ColroundMixesEachColumn := by
  refine ⟨formatNWord_of_decode (by decide) (by decide), fun s hs => ?_, fun s => execColround_fault⟩
  obtain ⟨w, hw⟩ := (allWords_isSome_iff s).2 hs
  exact ⟨_, execColround_next hw, fun g hg wa wb wc wd ha hb hc hd =>
    colGroups_isPhase.holdsGroup hw hg ⟨ha, hb, hc, hd⟩, frame_setWords_complete s _⟩

/-- Settles O27: ROWROUND rewrites the words with its phase of R82's rows. -/
theorem rowroundMixesEachRow : Obligations.RowroundMixesEachRow := by
  refine ⟨formatNWord_of_decode (by decide) (by decide), fun s hs => ?_, fun s => execRowround_fault⟩
  obtain ⟨w, hw⟩ := (allWords_isSome_iff s).2 hs
  exact ⟨_, execRowround_next hw, fun g hg wa wb wc wd ha hb hc hd =>
    rowGroups_isPhase.holdsGroup hw hg ⟨ha, hb, hc, hd⟩, frame_setWords_complete s _⟩

end Sys2Proof.Machine
end

section
/-! PROOF. NOP, EXTRACT and RUN with its length check (42_extract_run.md R95 to R98, R101): what they leave in
OUTBUF and in the report, what they leave alone, and where they fault: O17, O35, O34 and O37. -/

namespace Sys2Proof.Machine

/-! ### NOP (R101) -/

/-- A latched word that decodes runs as its command (60_exceptions.md R111). -/
theorem engineStep_of_decode_ok {s : State} {v : Word32} {i : Instr} (hs : s.cmdLatch = some v)
    (h : decode v = .ok i) : engineStep s = exec i s := by
  simp only [engineStep, hs, h]

theorem execNop_eq (s : State) : exec .nop s = .next s.complete := rfl

/-- STATUS after an issued command that completed, as the host reads it. -/
theorem Status.issued_completed_word : Status.issued.completed.word = 0x00000002#32 := by decide

/-- Issue and completion write no data. -/
theorem sameData_issue_complete (s : State) (v : Word32) : SameData s (s.issue v).complete := by
  constructor <;> simp

/-- Settles O17: NOP's body is empty, so what remains of the old report is what issue left of it: nothing. -/
theorem nopOnlyCompletes : Obligations.NopOnlyCompletes := by
  have hword : decode 0x00000000#32 = .ok .nop := by decide
  refine ⟨formatNWord_of_decode (by decide) hword, execNop_eq, fun s => ?_⟩
  exact ⟨(s.issue 0x00000000#32).complete, engineStep_of_decode_ok (s.issue_cmdLatch _) hword,
    sameData_issue_complete s _, Status.issued_completed_word, rfl, rfl⟩

/-! ### The length check (R97) -/

/-- Settles O35: the clauses are the branches of the check, in its order. -/
theorem validateReportsTheFirstWrongLength : Obligations.ValidateReportsTheFirstWrongLength := by
  refine fun s => ⟨fun hout => ?_, fun hout hkey => ?_, fun hout hkey hnonce => ?_,
    (validate_eq_none_iff s).2⟩
  · rw [validate, if_pos hout]
  · rw [validate, if_neg (not_not_intro hout), if_pos hkey]
  · rw [validate, if_neg (not_not_intro hout), if_neg (not_not_intro hkey), if_pos hnonce]

/-! ### EXTRACT (R95, R96) -/

/-- The output map as the statements list it: the byte offset in OUTBUF and its state word. -/
def outPlaces : List (Nat × WordIdx) :=
  [(0, 0), (4, 5), (8, 10), (12, 15), (16, 6), (20, 7), (24, 8), (28, 9)]

/-- The list is the model's map `opos`, word `i` at byte offset `4i`. -/
theorem opos_of_mem_outPlaces : ∀ p ∈ outPlaces, ∃ i : Fin 8, p.1 = 4 * i.val ∧ opos[i] = p.2 := by
  decide

/-- The state EXTRACT leaves, before it completes. -/
def State.extracted (s : State) (o : Vector Word32 8) : State :=
  s.setMem (storeWords s.mem outBase o.toList)

/-- Where the output words are the state's own, each state word of the map stands little-endian in its four
bytes of OUTBUF. -/
theorem State.read_extracted {s : State} {o : Vector Word32 8} (ho : s.outWords = some o)
    {p : Nat × WordIdx} (hp : p ∈ outPlaces) {w : Word32} (hw : s.readX p.2 = some w) {j : Nat}
    (hj : j < 4) : (s.extracted o).mem.read (0x60 + p.1 + j) = some (w.extractLsb' (8 * j) 8) := by
  obtain ⟨i, hoff, hpos⟩ := opos_of_mem_outPlaces p hp
  have hword : s.readX opos[i] = some o[i] := collect_eq_some_iff.1 ho i
  rw [hpos, hw, Option.some_inj] at hword
  have hbyte := read_storeWords s.mem outBase o.toList i.val j (by simp) hj
  rwa [Vector.getElem_toList, byteOf, ← Fin.getElem_fin, ← hword, ← hoff] at hbyte

/-- The 32 bytes of OUTBUF are all that EXTRACT writes. -/
theorem State.read_extracted_outside (s : State) (o : Vector Word32 8) {a : Nat}
    (h : a < 0x60 ∨ 0x80 ≤ a) : (s.extracted o).mem.read a = s.mem.read a :=
  read_storeWords_outside _ _ _ _ (by simpa using h)

/-- A store to the buffers changes no register, and completion only BUSY and DONE. -/
theorem frame_extracted_complete (s : State) (o : Vector Word32 8) :
    CompletedFrom s (s.extracted o).complete ∧ SameControl s (s.extracted o).complete :=
  ⟨rfl, by constructor <;> rfl⟩

/-- Settles O34: the reads succeed exactly where the eight words hold values, and word `i` of the map goes to
byte offset `4i`. -/
theorem extractWritesTheOutputBuffer : Obligations.ExtractWritesTheOutputBuffer := by
  refine ⟨formatNWord_of_decode (by decide) (by decide), fun s hs => ?_, fun s => execExtract_fault⟩
  obtain ⟨o, ho⟩ := (outWords_isSome_iff s).2 hs
  exact ⟨(s.extracted o).complete, execExtract_next ho,
    fun p hp w hw j hj => State.read_extracted ho hp hw hj,
    fun a => s.read_extracted_outside o, rfl, frame_extracted_complete s o⟩

/-! ### RUN (R98) -/

/-- The words that LOAD then PERMUTE leave, and RUN's output. -/
theorem derived_eq_extracted (t : State) (w : Words) : derived t w =
    (t.setWords (permuteWords w)).extracted (Vector.ofFn fun j => (permuteWords w)[opos[j]]) := by
  rw [derived, State.extracted, State.setWords_mem]

/-- RUN's three bodies after the reads of its first succeed. -/
theorem execRun_next {s : State} {k : Vector Word32 8} {n : Vector Word32 4} (hlen : s.lengthsOk)
    (hk : s.keyWords = some k) (hn : s.nonceWords = some n) :
    ∃ w, (s.placeAll k n).allWords = some w ∧
      exec .run s = .next (derived (s.placeAll k n) w).complete := by
  obtain ⟨w, hw, hbody⟩ := deriveBody_some (loadBody_some hk hn)
  exact ⟨w, hw, by rw [execRun_eq hlen, hbody, endBody_some, State.placeAll]⟩

theorem execRun_fault {s : State} (hlen : s.lengthsOk) (h : ¬ (s.keyWritten ∧ s.nonceWritten)) :
    exec .run s = .fault .unwritten := by
  have hnone := option_eq_none_of_not_exists (mt (loadBody_isSome_iff s).1 h)
  rw [execRun_eq hlen, deriveBody_none hnone, endBody_none]

/-- Completion writes STATUS only, so it can be put off until after a rewrite of the words or the output. -/
theorem State.setWords_complete (s : State) (w : Words) :
    s.complete.setWords w = (s.setWords w).complete := rfl

theorem State.extracted_complete (s : State) (o : Vector Word32 8) :
    s.complete.extracted o = (s.extracted o).complete := rfl

/-- PERMUTE then EXTRACT after a LOAD that left the words `w`: completing between the bodies changes no
cell, so they end in `derived`. -/
theorem execPermute_execExtract {t : State} {w : Words} (hw : t.allWords = some w) :
    andThen (exec .permute t.complete) (exec .extract) = .next (derived t w).complete := by
  have hout := (State.outWords_complete _).trans (outWords_setWords t (permuteWords w))
  rw [execPermute_next (t.allWords_complete.trans hw), andThen, State.setWords_complete,
    State.complete_complete, execExtract_next hout, ← State.extracted, State.extracted_complete,
    State.complete_complete, derived_eq_extracted]

/-- RUN with the right lengths is its three commands, where they answer and where they fault. -/
theorem execRun_eq_andThen {s : State} (hlen : s.lengthsOk) :
    exec .run s = andThen (andThen (exec .load s) (exec .permute)) (exec .extract) := by
  by_cases hwritten : s.keyWritten ∧ s.nonceWritten
  · obtain ⟨k, hk⟩ := (keyWords_isSome_iff s).2 hwritten.1
    obtain ⟨n, hn⟩ := (nonceWords_isSome_iff s).2 hwritten.2
    obtain ⟨w, hw, hrun⟩ := execRun_next hlen hk hn
    rw [hrun, execLoad_next hk hn, andThen, execPermute_execExtract hw]
  · rw [execRun_fault hlen hwritten, execLoad_fault hwritten, andThen, andThen]

/-- RUN leaves the permuted words in place. -/
theorem readX_derived_complete (t : State) (w : Words) (i : WordIdx) :
    (derived t w).complete.readX i = some (permuteWords w)[i] := by
  rw [derived, State.readX_complete, State.readX_setMem, State.readX_setWords]

/-- RUN's writes of words and output change no register but BUSY and DONE. -/
theorem frame_derived_complete (s : State) (k : Vector Word32 8) (n : Vector Word32 4) (w : Words) :
    CompletedFrom s (derived (s.placeAll k n) w).complete ∧
      SameControl s (derived (s.placeAll k n) w).complete := by
  rw [derived, State.placeAll_eq_writeXs]
  refine ⟨?_, ?_⟩
  · simp [CompletedFrom, Status.completed]
  · constructor <;> simp

/-- Settles O37: RUN's reads succeed exactly where LOAD's do; the permuted words are then all written, and the
output is EXTRACT's of them. -/
theorem runIsLoadPermuteExtract : Obligations.RunIsLoadPermuteExtract := by
  refine ⟨formatNWord_of_decode (by decide) (by decide), fun s => execRun_eq_andThen,
    fun s hlen hkey hnonce => ?_, fun s => execRun_fault, fun s e => execRun_length⟩
  obtain ⟨k, hk⟩ := (keyWords_isSome_iff s).2 hkey
  obtain ⟨n, hn⟩ := (nonceWords_isSome_iff s).2 hnonce
  obtain ⟨w, -, hrun⟩ := execRun_next hlen hk hn
  refine ⟨(derived (s.placeAll k n) w).complete, hrun, fun i => ?_, fun p hp v hv j hj => ?_,
    fun a ha => ?_, frame_derived_complete s k n w⟩
  · rw [readX_derived_complete, Option.isSome_some]
  · rw [readX_derived_complete] at hv
    rw [State.complete_mem, derived_eq_extracted]
    exact State.read_extracted (outWords_setWords _ _) hp ((State.readX_setWords _ _ _).trans hv) hj
  · rw [State.complete_mem, derived_eq_extracted, State.read_extracted_outside _ _ ha,
      State.setWords_mem, State.placeAll_eq_writeXs, State.writeXs_mem]

end Sys2Proof.Machine
end

section
/-! PROOF. The issue of a command word and the length error of RUN (60_exceptions.md R110, R116): O14
and O36. -/

namespace Sys2Proof.Machine

/-! ### Issue (R110) -/

/-- CMD takes word writes. -/
theorem checkAccess_cmd : checkAccess 0x00 4 .wr = some .ctrl := by decide

/-- A write to CMD of an idle engine is an issue. -/
theorem memWrite_cmd {s : State} (v : Word32) (hb : s.status.busy = false) :
    memWrite 0x00 4 v s = .ok (s.issue v) :=
  memWrite_of_idle v checkAccess_cmd hb

/-- Settles O14: a write to CMD is legal, so BUSY alone decides between the issue and the fault. -/
theorem issueLatchesTheWordAndClearsTheReport : Obligations.IssueLatchesTheWordAndClearsTheReport :=
  fun _ v => ⟨memWrite_cmd v, memWrite_of_busy v checkAccess_cmd⟩

/-! ### Other values of the length registers -/

/-- The state with the three length registers replaced. -/
def State.withLengths (s : State) (o k n : Word32) : State :=
  { s with outLen := o, keyLen := k, nonceLen := n }

section WithLengths

variable (s : State) (o k n : Word32)

@[simp] theorem State.keyWords_withLengths : (s.withLengths o k n).keyWords = s.keyWords := rfl

@[simp] theorem State.nonceWords_withLengths : (s.withLengths o k n).nonceWords = s.nonceWords := rfl

@[simp] theorem State.allWords_withLengths : (s.withLengths o k n).allWords = s.allWords := rfl

@[simp] theorem State.outWords_withLengths : (s.withLengths o k n).outWords = s.outWords := rfl

theorem State.writeXs_withLengths (ws : List (WordIdx × Word32)) :
    (s.withLengths o k n).writeXs ws = (s.writeXs ws).withLengths o k n := by
  induction ws generalizing s with
  | nil => rfl
  | cons p ws ih => exact ih (s.writeX p.1 p.2)

theorem State.placeAll_withLengths (key : Vector Word32 8) (nonce : Vector Word32 4) :
    (s.withLengths o k n).placeAll key nonce = (s.placeAll key nonce).withLengths o k n := by
  rw [State.placeAll_eq_writeXs, State.writeXs_withLengths, State.placeAll_eq_writeXs]

end WithLengths

/-! ### Bodies that never look at the length registers -/

/-- The body answers the same and changes the same, whatever the length registers hold, and keeps them. -/
def IgnoresLengths (body : State → Option State) : Prop :=
  ∀ (s : State) (o k n : Word32),
    body (s.withLengths o k n) = (body s).map fun t => t.withLengths o k n

/-- A body that reads no length register, then writes none, ignores them. -/
theorem ignoresLengths_map {α : Type} {read : State → Option α} {write : State → α → State}
    (hread : ∀ s o k n, read (s.withLengths o k n) = read s)
    (hwrite : ∀ s o k n a, write (s.withLengths o k n) a = (write s a).withLengths o k n) :
    IgnoresLengths fun s => (read s).map (write s) := by
  intro s o k n
  dsimp only
  rw [hread, Option.map_map]
  exact Option.map_congr fun a _ => hwrite s o k n a

theorem ignoresLengths_placeConstants : IgnoresLengths fun s => some s.placeConstants :=
  fun s o k n => congrArg some (s.writeXs_withLengths o k n _)

theorem ignoresLengths_placeKey : IgnoresLengths fun s => s.keyWords.map s.placeKey :=
  ignoresLengths_map State.keyWords_withLengths fun s o k n _ => s.writeXs_withLengths o k n _

theorem ignoresLengths_placeNonce : IgnoresLengths fun s => s.nonceWords.map s.placeNonce :=
  ignoresLengths_map State.nonceWords_withLengths fun s o k n _ => s.writeXs_withLengths o k n _

theorem ignoresLengths_onAllWords (f : Words → Words) : IgnoresLengths (onAllWords f) :=
  ignoresLengths_map State.allWords_withLengths fun _ _ _ _ _ => rfl

theorem ignoresLengths_extractBody : IgnoresLengths extractBody :=
  ignoresLengths_map State.outWords_withLengths fun _ _ _ _ _ => rfl

theorem ignoresLengths_loadBody : IgnoresLengths loadBody := by
  intro s o k n
  by_cases h : ∃ t, loadBody s = some t
  · obtain ⟨t, ht⟩ := h
    obtain ⟨key, nonce, hkey, hnonce, rfl⟩ := loadBody_eq_some ht
    rw [ht, loadBody_some (s := s.withLengths o k n) hkey hnonce, Option.map_some]
    exact congrArg some (s.placeAll_withLengths o k n key nonce)
  · rw [option_eq_none_of_not_exists h, Option.map_none]
    rw [loadBody_isSome_iff] at h
    exact option_eq_none_of_not_exists (mt (loadBody_isSome_iff _).1 h)

theorem ignoresLengths_qrBody (a b c d : WordIdx) : IgnoresLengths (qrBody a b c d) := by
  intro s o k n
  by_cases h : ∃ t, qrBody a b c d s = some t
  · obtain ⟨t, ht⟩ := h
    obtain ⟨wa, wb, wc, wd, ha, hb, hc, hd, rfl⟩ := qrBody_eq_some ht
    rw [ht, qrBody_some (s := s.withLengths o k n) ha hb hc hd, Option.map_some,
      State.writeXs_withLengths]
  · rw [option_eq_none_of_not_exists h, Option.map_none]
    rw [qrBody_isSome_iff] at h
    exact option_eq_none_of_not_exists (mt (qrBody_isSome_iff a b c d _).1 h)

/-- Ending a body writes STATUS only, so it ignores the length registers where the body does. -/
theorem endBody_withLengths {body : State → Option State} (h : IgnoresLengths body) (s : State)
    (o k n : Word32) : endBody (body (s.withLengths o k n)) =
      andThen (endBody (body s)) fun t => .next (t.withLengths o k n) := by
  rw [h s o k n]
  cases body s with
  | none => rfl
  | some t => rfl

/-- A QR term with repeated indices answers ILLEGAL before any read (30_encoding.md R58; log 8). -/
theorem execQr_repeated {a b c d : WordIdx} (h : ¬ [a, b, c, d].Nodup) (s : State) :
    exec (.qr a b c d) s = .next (s.signalIllegal (encode (.qr a b c d))) := by
  rw [exec, execQr, if_neg (mt (pairwiseDistinct_iff a b c d).1 h)]

/-- No command but RUN looks at the length registers. -/
theorem exec_withLengths {i : Instr} (hi : i ≠ .run) (s : State) (o k n : Word32) :
    exec i (s.withLengths o k n) = andThen (exec i s) fun t => .next (t.withLengths o k n) := by
  cases i with
  | nop => rfl
  | loadc => exact endBody_withLengths ignoresLengths_placeConstants s o k n
  | loadk => exact endBody_withLengths ignoresLengths_placeKey s o k n
  | loadn => exact endBody_withLengths ignoresLengths_placeNonce s o k n
  | load => exact endBody_withLengths ignoresLengths_loadBody s o k n
  | qr a b c d =>
    by_cases hd : [a, b, c, d].Nodup
    · rw [execQr_eq hd, execQr_eq hd]
      exact endBody_withLengths (ignoresLengths_qrBody a b c d) s o k n
    · rw [execQr_repeated hd, execQr_repeated hd]
      rfl
  | colround => exact endBody_withLengths (ignoresLengths_onAllWords colPhase) s o k n
  | rowround => exact endBody_withLengths (ignoresLengths_onAllWords rowPhase) s o k n
  | dround => exact endBody_withLengths (ignoresLengths_onAllWords doubleRound) s o k n
  | permute => exact endBody_withLengths (ignoresLengths_onAllWords permuteWords) s o k n
  | extract => exact endBody_withLengths ignoresLengths_extractBody s o k n
  | run => exact absurd rfl hi

/-! ### The length error of RUN (R116) -/

/-- RUN reports the length error that the check finds, and `w` is how STATUS then reads. -/
theorem exists_execRun_report {s : State} {param : ErrParam} {actual required w : Word32}
    (hw : (Status.signalled .length param).word = w) (h : validate s = some ⟨param, actual, required⟩) :
    ∃ st : Status, st.word = w ∧
      exec .run s = .next { s with status := st, einfo0 := actual, einfo1 := required } :=
  ⟨Status.signalled .length param, hw, execRun_length h⟩

/-- Settles O36: RUN signals what the check of R97 finds first, and the bodies of the other commands
read and write no length register. -/
theorem runReportsTheFirstWrongLength : Obligations.RunReportsTheFirstWrongLength := by
  refine ⟨fun s hout => ?_, fun s hout hkey => ?_, fun s hout hkey hnonce => ?_,
    fun i s o k n hi => exec_withLengths hi s o k n⟩
  all_goals obtain ⟨houtput, hkeyed, hnonced, -⟩ := validateReportsTheFirstWrongLength s
  · exact exists_execRun_report (by decide) (houtput hout)
  · exact exists_execRun_report (by decide) (hkeyed hout hkey)
  · exact exists_execRun_report (by decide) (hnonced hout hkey hnonce)

end Sys2Proof.Machine
end

section
/-! PROOF. Decoding and encoding undo each other (30_encoding.md R54 to R60), and the fixed words of the
spec: O6, O7, O10 and O25. -/

namespace Sys2Proof.Machine

/-! ### From a command to its word and back (R55, R58) -/

/-- Settles O6: a format-N word is its opcode, which the map lists once; the fields of a QR word are its
indices. -/
theorem decodingAnEncodedCommandGivesItBack : Obligations.DecodingAnEncodedCommandGivesItBack := by
  intro i hi
  cases i with
  | qr a b c d => exact decode_qrWord ((pairwiseDistinct_iff a b c d).1 hi)
  | nop | loadc | loadk | loadn | load | colround | rowround | dround | permute | extract | run => decide

/-- Only the terms of R58 come out of the decoder. -/
theorem wellFormed_of_decode_eq_ok {v : Word32} {i : Instr} (h : decode v = .ok i) :
    i.wellFormed = true := by
  rcases decode_eq_ok h with ⟨-, -, hdist, rfl⟩ | ⟨-, -, hrow⟩
  · exact hdist
  · exact (plainCommands_lookup hrow).1

/-- Settles O7: the decoder checks every bit that the encoder does not take from the command. -/
theorem aDecodedWordIsItsCommandsEncoding : Obligations.ADecodedWordIsItsCommandsEncoding :=
  fun _ _ h => ⟨wellFormed_of_decode_eq_ok h, encode_of_decode_eq_ok h⟩

/-- Settles O10: fourteen fixed words, decoded. -/
theorem specWordsDecodeToTheirCommands : Obligations.SpecWordsDecodeToTheirCommands := by
  unfold Obligations.SpecWordsDecodeToTheirCommands
  decide

/-! ### A QR term with repeated indices (R58; log 8) -/

/-- Settles O25: such a term reports its own encoding before any read. -/
theorem aRepeatedIndexQrTermSignalsIllegal : Obligations.ARepeatedIndexQrTermSignalsIllegal :=
  fun _ _ _ _ s h => execQr_repeated h s

/-- The word of a QR term with repeated indices spells no command. -/
theorem spellsNothing_qrWord {a b c d : WordIdx} (h : pairwiseDistinct a b c d = false) :
    spellsNothing (encode (.qr a b c d)) = true := by
  rw [← Bool.not_eq_false, spellsNothing_eq_false_iff]
  rintro ⟨i, hi⟩
  obtain ⟨ha, hb, hc, hd⟩ := fields_qrWord a b c d
  rcases decode_eq_ok hi with ⟨-, -, hdist, -⟩ | ⟨hopc, -, -⟩
  · rw [encode, ha, hb, hc, hd, h] at hdist
    cases hdist
  · exact hopc (opcodeField_qrWord a b c d)

end Sys2Proof.Machine
end

section
/-! PROOF. Words, the little-endian codec and the registers the host reads (00_scope.md R4; 10_state.md R18,
R22 to R24; 20_memory.md R38; 40_codec_loader.md R66, R67): O5, O22, O45, O46, O47, O50 and O51. -/

namespace Sys2Proof.Machine

/-! ### The word operations (00_scope.md R4) -/

/-- Bits put above a number that stays below them add to it. -/
theorem or_mul_two_pow {x y i : Nat} (h : x < 2 ^ i) : x ||| y * 2 ^ i = x + y * 2 ^ i := by
  rw [← Nat.shiftLeft_eq, Nat.lor_comm, ← Nat.shiftLeft_add_eq_or_of_lt h, Nat.add_comm]

/-- The bits that a rotation drops at the top come back below the shifted ones. -/
theorem rotl32_toNat (v : Word32) {n : Nat} (hn : n < 32) :
    (rotl32 v n).toNat = (v.toNat * 2 ^ n + v.toNat / 2 ^ (32 - n)) % 2 ^ 32 := by
  have hpow : 2 ^ (32 - n) * 2 ^ n = 2 ^ 32 := by rw [← pow_add, Nat.sub_add_cancel hn.le]
  have hlow : v.toNat / 2 ^ (32 - n) < 2 ^ n := by
    rw [Nat.div_lt_iff_lt_mul (by positivity), mul_comm, hpow]
    exact v.isLt
  have hhigh : v.toNat * 2 ^ n % 2 ^ 32 = v.toNat % 2 ^ (32 - n) * 2 ^ n := by
    rw [← hpow, Nat.mul_mod_mul_right]
  have hsum : (rotl32 v n).toNat = v.toNat / 2 ^ (32 - n) + v.toNat % 2 ^ (32 - n) * 2 ^ n := by
    rw [rotl32, BitVec.toNat_or, BitVec.toNat_shiftLeft, BitVec.toNat_ushiftRight, Nat.shiftLeft_eq,
      Nat.shiftRight_eq_div_pow, hhigh, Nat.lor_comm, or_mul_two_pow hlow]
  have hlt := (rotl32 v n).isLt
  rw [← Nat.mod_eq_of_lt hlt, hsum, ← hhigh, Nat.add_mod_mod, Nat.add_comm]

/-- A rotation moves bit `i` up by `n` places, around the end of the word. -/
theorem getLsbD_rotl32 (v : Word32) {n i : Nat} (hn : n < 32) (hi : i < 32) :
    (rotl32 v n).getLsbD ((i + n) % 32) = v.getLsbD i := by
  rw [rotl32_eq_rotateLeft v hn, BitVec.getLsbD_rotateLeft, Nat.mod_eq_of_lt hn]
  by_cases hwrap : i + n < 32
  · rw [Nat.mod_eq_of_lt hwrap]
    simp [hwrap]
  · have hmod : (i + n) % 32 = i + n - 32 := by omega
    have hback : 32 - n + (i + n - 32) = i := by omega
    rw [hmod, decide_eq_true (by omega), cond_true, hback]

/-- Settles O22: the sum and the exclusive or are the library's; the rotation is computed on numbers and on
bits. -/
theorem wordOperationsWrapAndRotate : Obligations.WordOperationsWrapAndRotate :=
  ⟨BitVec.toNat_add, fun _ _ _ => BitVec.getLsbD_xor,
    fun v _ _ hn => ⟨rotl32_toNat v hn, fun _ hi => getLsbD_rotl32 v hn hi⟩⟩

/-! ### The buffer memory (log 2; 20_memory.md R38) -/

/-- Settles O5: offsets that rise strictly leave one way to list the bytes that hold values. -/
theorem canonicalMemoriesReadingAlikeAreEqual : Obligations.CanonicalMemoriesReadingAlikeAreEqual :=
  fun _ _ => Memory.eq_of_read_eq

theorem read_storeLE_inside (m : Memory) (off : Nat) (v : Word32) {n j : Nat} (hj : j < n) :
    (storeLE m off v n).read (off + j) = some (byteOf v j) := by
  rw [read_storeLE, if_pos (by omega), Nat.add_sub_cancel_left]

theorem read_storeLE_outside (m : Memory) {off n a : Nat} (v : Word32) (h : a < off ∨ off + n ≤ a) :
    (storeLE m off v n).read a = m.read a := by
  rw [read_storeLE, if_neg (by omega)]

theorem regionWrite_of_isBuffer {r : Region} (s : State) (addr n : Nat) (v : Word32)
    (h : r.isBuffer = true) : regionWrite s r addr n v = s.setMem (storeLE s.mem addr v n) := by
  cases r with
  | keybuf | noncebuf | outbuf => rfl
  | ctrl | xwin => cases h

/-- A legal buffer write of an idle engine is a store. -/
theorem memWrite_buffer {s : State} {addr n : Nat} (v : Word32) (hb : s.status.busy = false)
    (hn : n ∈ [1, 2, 4]) (hal : addr % n = 0)
    (hin : (0x20 ≤ addr ∧ addr + n ≤ 0x50) ∨ (0x60 ≤ addr ∧ addr + n ≤ 0x80)) :
    memWrite addr n v s = .ok (s.setMem (storeLE s.mem addr v n)) := by
  obtain ⟨r, hbuf, hr⟩ := checkAccess_buffer .wr hn hal hin
  rw [memWrite_of_idle v hr hb, regionWrite_of_isBuffer s addr n v hbuf]

/-- Settles O45: the access lies in one buffer, and its write is a little-endian store. -/
theorem bufferWritesSetExactlyTheirBytes : Obligations.BufferWritesSetExactlyTheirBytes :=
  fun s addr _ v hb hn hal hin =>
    ⟨_, memWrite_buffer v hb hn hal hin, fun _ => read_storeLE_inside s.mem addr v,
      fun _ => read_storeLE_outside s.mem v⟩

/-! ### The codec (40_codec_loader.md R66, R67) -/

/-- Each byte of a word lies above the ones before it. -/
theorem wordOfBytes_toNat (b0 b1 b2 b3 : Byte) : (wordOfBytes b0 b1 b2 b3).toNat =
    b0.toNat + b1.toNat * 2 ^ 8 + b2.toNat * 2 ^ 16 + b3.toNat * 2 ^ 24 := by
  have h0 := b0.isLt; have h1 := b1.isLt; have h2 := b2.isLt; have h3 := b3.isLt
  have hplace : ∀ (b : Byte) (lo : Nat), lo ≤ 24 → (b.setWidth 32 <<< lo).toNat = b.toNat * 2 ^ lo := by
    intro b lo hlo
    have hlt : b.toNat * 2 ^ lo < 2 ^ 32 :=
      calc b.toNat * 2 ^ lo < 2 ^ 8 * 2 ^ lo := by gcongr; exact b.isLt
        _ ≤ 2 ^ 8 * 2 ^ 24 := by gcongr; omega
        _ = 2 ^ 32 := by norm_num
    rw [BitVec.toNat_shiftLeft, BitVec.toNat_setWidth_of_le (by omega), Nat.shiftLeft_eq,
      Nat.mod_eq_of_lt hlt]
  rw [wordOfBytes, BitVec.toNat_or, BitVec.toNat_or, BitVec.toNat_or, hplace _ _ (by omega),
    hplace _ _ (by omega), hplace _ _ (by omega), BitVec.toNat_setWidth_of_le (by omega),
    or_mul_two_pow (i := 8) (by omega), or_mul_two_pow (i := 16) (by omega),
    or_mul_two_pow (i := 24) (by omega)]

/-- Settles O46: the load is the word of its four bytes, and a byte holding `⊥` leaves none. -/
theorem aCodecLoadAssemblesFourBytes : Obligations.ACodecLoadAssemblesFourBytes :=
  ⟨fun _ _ b0 b1 b2 b3 h0 h1 h2 h3 =>
      ⟨_, loadLE32_eq_wordOfBytes h0 h1 h2 h3, wordOfBytes_toNat b0 b1 b2 b3⟩,
    fun _ _ j hj h => loadLE_eq_none ⟨j, hj, h⟩, by decide⟩

/-- Settles O47: the codec store is a store of four bytes, and a word is determined by its four bytes. -/
theorem theCodecRoundTrips : Obligations.TheCodecRoundTrips :=
  fun m off v => ⟨fun _ => read_storeLE_inside m off v, fun _ => read_storeLE_outside m v,
    loadLE32_storeLE32 m off v⟩

/-! ### The registers (10_state.md R18, R22 to R24) -/

/-- The bits of STATUS from 10 on are reserved. -/
theorem Status.word_reserved (st : Status) {i : Nat} (hi : 10 ≤ i) : st.word.getLsbD i = false := by
  have hlt : st.word.toNat < 2 ^ 10 := by
    obtain ⟨busy, done, err, code, param⟩ := st
    revert busy done err
    cases code <;> cases param <;> decide
  exact Nat.testBit_lt_two_pow (hlt.trans_le (Nat.pow_le_pow_right (by omega) hi))

/-- The fields of STATUS in their places. -/
theorem Status.word_fields (st : Status) : st.word.getLsbD 1 = st.done ∧ st.word.getLsbD 2 = st.err ∧
    st.word.getLsbD 3 = false ∧ st.word.extractLsb' 4 4 = st.errCode.bits ∧
    st.word.extractLsb' 8 2 = st.errParam.bits := by
  obtain ⟨busy, done, err, code, param⟩ := st
  revert busy done err
  cases code <;> cases param <;> decide

/-- Settles O50: STATUS can be read in every state, and its word is its fields in their places. -/
theorem statusReadsItsFields : Obligations.StatusReadsItsFields := by
  intro s
  obtain ⟨hdone, herr, hres, hcode, hparam⟩ := s.status.word_fields
  refine ⟨s.status.word, memRead_status s, s.status.word_bit_zero, hdone, herr, hres,
    fun i hi => s.status.word_reserved hi, hcode.trans ?_, hparam.trans ?_⟩
  · cases s.status.errCode <;> rfl
  · cases s.status.errParam <;> rfl

/-- A legal write of a control register of an idle engine. -/
theorem memWrite_ctrl {s : State} {addr : Nat} (v : Word32) (hb : s.status.busy = false)
    (h : checkAccess addr 4 .wr = some .ctrl) : memWrite addr 4 v s = .ok (regWrite s addr v) :=
  memWrite_of_idle v h hb

/-- Settles O51: the registers are readable in every state, and the three lengths writable while idle. -/
theorem informationAndLengthRegistersReadBack : Obligations.InformationAndLengthRegistersReadBack :=
  fun s v => ⟨memRead_einfo0 s, memRead_einfo1 s, memRead_outLen s, memRead_keyLen s, memRead_nonceLen s,
    fun hb => ⟨memWrite_ctrl v hb (by decide), memWrite_ctrl v hb (by decide),
      memWrite_ctrl v hb (by decide)⟩⟩

end Sys2Proof.Machine
end

section
/-! PROOF. The round commands as wholes (41_permutation.md R82 to R87): the four QR commands of a phase in any
order, DROUND and PERMUTE as repetitions, and what each needs and keeps: O28 to O33. -/

namespace Sys2Proof.Machine

/-! ### One command after another -/

@[simp] theorem andThen_next (t : State) (f : State → Result) : andThen (.next t) f = f t := rfl

@[simp] theorem andThen_fault (e : Fault) (f : State → Result) : andThen (.fault e) f = .fault e := rfl

/-- The QR command of a group. -/
def Group.command (g : Group) : Instr := .qr g.1 g.2.1 g.2.2.1 g.2.2.2

/-- The QR commands of a list of groups, in order, after an outcome. -/
def andThenGroups (o : Result) (gs : List Group) : Result :=
  gs.foldl (fun o g => andThen o (exec g.command)) o

theorem andThenGroups_cons (o : Result) (g : Group) (gs : List Group) :
    andThenGroups o (g :: gs) = andThenGroups (andThen o (exec g.command)) gs := rfl

theorem andThenGroups_fault (e : Fault) (gs : List Group) :
    andThenGroups (.fault e) gs = .fault e := by
  induction gs with
  | nil => rfl
  | cons g gs ih => rw [andThenGroups_cons, andThen_fault, ih]

/-! ### A phase and its four QR commands (R82 to R84) -/

/-- From a completed state, QR commands on written words are quarter-rounds on their groups. -/
theorem andThenGroups_setWords (s : State) (w : Words) {gs : List Group}
    (hn : ∀ g ∈ gs, (groupWords g).Nodup) :
    andThenGroups (.next (s.setWords w).complete) gs =
      .next (s.setWords (gs.foldl applyGroup w)).complete := by
  induction gs generalizing w with
  | nil => rfl
  | cons g gs ih =>
    have hw : (s.setWords w).complete.allWords = some w := allWords_setWords s w
    have hg := execQr_next_of_allWords hw (hn g List.mem_cons_self)
    rw [State.setWords_complete_setWords, State.complete_complete] at hg
    rw [andThenGroups_cons, andThen_next, Group.command, hg]
    exact ih _ fun g' hg' => hn g' (List.mem_cons_of_mem _ hg')

/-- Where a word holds `⊥`, the QR commands before the one that reads it leave it so, and that one
faults. -/
theorem andThenGroups_unwritten {s : State} {j : WordIdx} (hj : s.readX j = none) {gs : List Group}
    (hn : ∀ g ∈ gs, (groupWords g).Nodup) (hmem : ∃ g ∈ gs, j ∈ groupWords g) :
    andThenGroups (.next s) gs = .fault .unwritten := by
  induction gs generalizing s with
  | nil => simp at hmem
  | cons g gs ih =>
    have hg : [g.1, g.2.1, g.2.2.1, g.2.2.2].Nodup := hn g List.mem_cons_self
    rw [andThenGroups_cons, andThen_next]
    rcases exec_outcome g.command s with ⟨t, ht⟩ | hfault
    · have hout : j ∉ groupWords g := by
        intro hin
        rw [Group.command, execQr_fault hg fun h => by simpa [hj] using h j hin] at ht
        cases ht
      rw [ht]
      refine ih ((execQr_readX_of_notMem hg ht j hout).trans hj)
        (fun g' hg' => hn g' (List.mem_cons_of_mem _ hg')) ?_
      obtain ⟨g', hg', hin⟩ := hmem
      rcases List.mem_cons.1 hg' with rfl | hg'
      · exact absurd hin hout
      · exact ⟨g', hg', hin⟩
    · rw [hfault, andThenGroups_fault]

theorem exists_readX_eq_none {s : State} (h : ¬ s.allXWritten) : ∃ j, s.readX j = none := by
  simpa using h

/-- A phase command is the QR commands of its groups in order, where they answer and where they fault. -/
theorem IsPhase.andThenGroups_eq {g : Group} {gs : List Group} (hp : IsPhase (g :: gs)) (s : State) :
    andThenGroups (exec g.command s) gs = endBody (onAllWords ((g :: gs).foldl applyGroup) s) := by
  by_cases hs : s.allXWritten
  · obtain ⟨w, hw⟩ := (allWords_isSome_iff s).2 hs
    rw [Group.command, execQr_next_of_allWords hw (hp.distinct g List.mem_cons_self),
      endBody_onAllWords_next hw]
    exact andThenGroups_setWords s _ fun g' hg' => hp.distinct g' (List.mem_cons_of_mem _ hg')
  · obtain ⟨j, hj⟩ := exists_readX_eq_none hs
    rw [endBody_onAllWords_fault hs]
    exact andThenGroups_unwritten hj hp.distinct (hp.covers j)

/-- Settles O28: the groups of a phase are disjoint and cover the words, so its QR commands read what the
phase reads. -/
theorem aPhaseIsItsFourQrCommands : Obligations.APhaseIsItsFourQrCommands :=
  fun s => ⟨(colGroups_isPhase.andThenGroups_eq s).symm, (rowGroups_isPhase.andThenGroups_eq s).symm⟩

theorem IsPhase.perm {gs gs' : List Group} (hp : IsPhase gs) (h : gs'.Perm gs) : IsPhase gs' where
  distinct := fun g hg => hp.distinct g (h.mem_iff.1 hg)
  disjoint := (h.pairwise_iff fun hdisj j hj hj' => hdisj j hj' hj).2 hp.disjoint
  covers := fun j => by
    obtain ⟨g, hg, hj⟩ := hp.covers j
    exact ⟨g, h.mem_iff.2 hg, hj⟩

/-- In any order each group of a phase ends with the mix of its old words, and the groups cover the words. -/
theorem IsPhase.foldl_applyGroup_perm {gs gs' : List Group} (hp : IsPhase gs) (h : gs'.Perm gs)
    (w : Words) : gs'.foldl applyGroup w = gs.foldl applyGroup w := by
  have hp' := hp.perm h
  have hold := foldl_applyGroup_holdsAt gs w hp.distinct hp.disjoint
  have hnew := foldl_applyGroup_holdsAt gs' w hp'.distinct hp'.disjoint
  exact hp.words_eq (groupMix w) (fun g hg => hnew g (h.mem_iff.2 hg)) hold

/-- Settles O29: both lists of groups are phases. -/
theorem theQuarterRoundsOfAPhaseCommute : Obligations.TheQuarterRoundsOfAPhaseCommute :=
  ⟨fun _ w h => colGroups_isPhase.foldl_applyGroup_perm h w,
    fun _ w h => rowGroups_isPhase.foldl_applyGroup_perm h w⟩

/-! ### DROUND (R85) -/

theorem execDround_eq_andThen (s : State) :
    exec .dround s = andThen (exec .colround s) (exec .rowround) := by
  by_cases hs : s.allXWritten
  · obtain ⟨w, hw⟩ := (allWords_isSome_iff s).2 hs
    have hcol : (s.setWords (colPhase w)).complete.allWords = some (colPhase w) := allWords_setWords s _
    rw [execDround_next hw, execColround_next hw, andThen_next, execRowround_next hcol,
      State.setWords_complete_setWords, State.complete_complete, doubleRound]
  · rw [execDround_fault hs, execColround_fault hs, andThen_fault]

/-- X[0] = 1 and every other word 0: from here the two orders of a double round differ. -/
def oneThenZeros : Words := (Vector.replicate 16 0#32).set 0 1#32

/-- The reverse order of DROUND on written words. -/
theorem execRowround_execColround {s : State} {w : Words} (hw : s.allWords = some w) :
    andThen (exec .rowround s) (exec .colround) = .next (s.setWords (colPhase (rowPhase w))).complete := by
  have hrow : (s.setWords (rowPhase w)).complete.allWords = some (rowPhase w) := allWords_setWords s _
  rw [execRowround_next hw, andThen_next, execColround_next hrow, State.setWords_complete_setWords,
    State.complete_complete]

theorem eq_of_setWords_x_eq {s s' : State} {w w' : Words} (h : (s.setWords w).x = (s'.setWords w').x) :
    w = w' := by
  ext1 i hi
  have hread := congrArg (fun x => x[i]) h
  simpa using hread

theorem doubleRound_oneThenZeros_ne :
    (doubleRound oneThenZeros)[1] ≠ (colPhase (rowPhase oneThenZeros))[1] := by decide

/-- Settles O30: the double round is its two phases, and from X = 1, 0, .., 0 their order shows in X[1]. -/
theorem droundIsColroundThenRowround : Obligations.DroundIsColroundThenRowround := by
  refine ⟨formatNWord_of_decode (by decide) (by decide), execDround_eq_andThen, fun s hs => ?_,
    fun s => execDround_fault, ?_⟩
  · obtain ⟨w, hw⟩ := (allWords_isSome_iff s).2 hs
    exact ⟨_, execDround_next hw, frame_setWords_complete s _⟩
  · have hw := allWords_setWords State.reset oneThenZeros
    refine ⟨_, _, _, execDround_next hw, execRowround_execColround hw, fun hx => ?_⟩
    have hwords : doubleRound oneThenZeros = colPhase (rowPhase oneThenZeros) :=
      eq_of_setWords_x_eq (s := State.reset.setWords oneThenZeros)
        (s' := State.reset.setWords oneThenZeros) hx
    exact doubleRound_oneThenZeros_ne (congrArg (fun w => w[1]) hwords)

/-! ### PERMUTE (R86) -/

/-- Repeated from a completed state with written words, DROUND is repeated double rounds. -/
theorem execTimes_dround_setWords (s : State) (w : Words) (n : Nat) :
    execTimes .dround n (s.setWords w).complete = .next (s.setWords (rounds n w)).complete := by
  induction n generalizing w with
  | zero => rfl
  | succ n ih =>
    have hw : (s.setWords w).complete.allWords = some w := allWords_setWords s w
    rw [execTimes, execDround_next hw, andThen_next, State.setWords_complete_setWords,
      State.complete_complete, ih, rounds]

theorem execTimes_dround_succ (s : State) (n : Nat) :
    execTimes .dround (n + 1) s = endBody (onAllWords (rounds (n + 1)) s) := by
  by_cases hs : s.allXWritten
  · obtain ⟨w, hw⟩ := (allWords_isSome_iff s).2 hs
    rw [execTimes, execDround_next hw, andThen_next, execTimes_dround_setWords,
      endBody_onAllWords_next hw, rounds]
  · rw [execTimes, execDround_fault hs, andThen_fault, endBody_onAllWords_fault hs]

/-- The quarter-round of zeros is zeros, so a double round keeps the all-zero words. -/
theorem doubleRound_zero : doubleRound (Vector.replicate 16 0#32) = Vector.replicate 16 0#32 := by decide

theorem rounds_zero (n : Nat) : rounds n (Vector.replicate 16 0#32) = Vector.replicate 16 0#32 := by
  induction n with
  | zero => rfl
  | succ n ih => rw [rounds, doubleRound_zero, ih]

/-- Settles O31: PERMUTE's ten double rounds are those of ten DROUNDs, and each keeps the all-zero words. -/
theorem permuteIsTenDrounds : Obligations.PermuteIsTenDrounds := by
  refine ⟨formatNWord_of_decode (by decide) (by decide), fun s => (execTimes_dround_succ s 9).symm,
    fun s hs => ?_, fun s => execPermute_fault, fun s hs => ?_⟩
  · obtain ⟨w, hw⟩ := (allWords_isSome_iff s).2 hs
    exact ⟨_, execPermute_next hw, frame_setWords_complete s _⟩
  · have hw : s.allWords = some (Vector.replicate 16 0#32) :=
      (allWords_eq_some_iff s _).2 fun i => by simpa using hs i
    refine ⟨_, execPermute_next hw, State.x_ext fun i => ?_⟩
    rw [State.readX_complete, permuteWords, rounds_zero, State.readX_setWords, hs i]
    simp

/-! ### What the round commands need and keep (R87) -/

theorem HoldsAt.unique {w : Words} {g : Group} {r r' : Word32 × Word32 × Word32 × Word32}
    (h : HoldsAt w g r) (h' : HoldsAt w g r') : r = r' := by
  obtain ⟨ha, hb, hc, hd⟩ := h
  obtain ⟨ha', hb', hc', hd'⟩ := h'
  exact Prod.ext (ha.symm.trans ha') (Prod.ext (hb.symm.trans hb')
    (Prod.ext (hc.symm.trans hc') (hd.symm.trans hd')))

/-- A phase can be undone group by group. -/
theorem IsPhase.foldl_applyGroup_injective {gs : List Group} (hp : IsPhase gs) :
    Function.Injective fun w => gs.foldl applyGroup w := by
  intro w w' h
  dsimp only at h
  ext1 i hi
  obtain ⟨g, hg, hin⟩ := hp.covers ⟨i, hi⟩
  have hold := foldl_applyGroup_holdsAt gs w hp.distinct hp.disjoint g hg
  rw [h] at hold
  have hmix := hold.unique (foldl_applyGroup_holdsAt gs w' hp.distinct hp.disjoint g hg)
  exact words_eq_of_groupMix_eq hmix _ hin

theorem colPhase_injective : Function.Injective colPhase := colGroups_isPhase.foldl_applyGroup_injective

theorem rowPhase_injective : Function.Injective rowPhase := rowGroups_isPhase.foldl_applyGroup_injective

theorem doubleRound_injective : Function.Injective doubleRound :=
  fun _ _ h => colPhase_injective (rowPhase_injective h)

theorem rounds_injective (n : Nat) : Function.Injective (rounds n) := by
  induction n with
  | zero => exact Function.injective_id
  | succ n ih => exact fun _ _ h => doubleRound_injective (ih h)

/-- Each round command is an injective function of the sixteen words, all read before any is written. -/
theorem exec_round {i : Instr} (hi : i ∈ [Instr.colround, .rowround, .dround, .permute]) :
    ∃ f : Words → Words, Function.Injective f ∧ ∀ s, exec i s = endBody (onAllWords f s) := by
  simp only [List.mem_cons, List.not_mem_nil, or_false] at hi
  rcases hi with rfl | rfl | rfl | rfl
  · exact ⟨colPhase, colPhase_injective, execColround_eq⟩
  · exact ⟨rowPhase, rowPhase_injective, execRowround_eq⟩
  · exact ⟨doubleRound, doubleRound_injective, execDround_eq⟩
  · exact ⟨permuteWords, rounds_injective _, execPermute_eq⟩

/-- Words read alike are state words alike. -/
theorem x_eq_of_allWords_eq {s s' : State} {w : Words} (h : s.allWords = some w)
    (h' : s'.allWords = some w) : s.x = s'.x :=
  State.x_ext fun i => ((allWords_eq_some_iff s w).1 h i).trans ((allWords_eq_some_iff s' w).1 h' i).symm

/-- Settles O32: where both runs answer, each image is that of the words read, under one injective
function. -/
theorem roundCommandsLoseNoInformation : Obligations.RoundCommandsLoseNoInformation := by
  intro i hi s s' t t' h h' hx
  obtain ⟨f, hf, hexec⟩ := exec_round hi
  rw [hexec] at h h'
  obtain ⟨u, hu, rfl⟩ := endBody_eq_next h
  obtain ⟨u', hu', rfl⟩ := endBody_eq_next h'
  obtain ⟨w, hw, rfl⟩ := onAllWords_eq_some hu
  obtain ⟨w', hw', rfl⟩ := onAllWords_eq_some hu'
  have himage : f w = f w' := eq_of_setWords_x_eq (s := s) (s' := s') hx
  exact x_eq_of_allWords_eq hw (hf himage ▸ hw')

theorem exists_endBody_next_iff (o : Option State) :
    (∃ t, endBody o = .next t) ↔ ∃ u, o = some u := by
  constructor
  · rintro ⟨t, h⟩
    obtain ⟨u, hu, -⟩ := endBody_eq_next h
    exact ⟨u, hu⟩
  · rintro ⟨u, rfl⟩
    exact ⟨_, endBody_some u⟩

/-- Settles O33: a round command reads every word, a QR the four of its indices. -/
theorem roundCommandsNeedEveryWordQrOnlyItsFour : Obligations.RoundCommandsNeedEveryWordQrOnlyItsFour := by
  refine ⟨fun s j hj i hi => ?_, fun s a b c d hn => ?_⟩
  · obtain ⟨f, -, hexec⟩ := exec_round hi
    rw [hexec]
    exact endBody_onAllWords_fault (fun h => by simpa [hj] using h j) f
  · rw [execQr_eq hn, exists_endBody_next_iff, qrBody_isSome_iff]

end Sys2Proof.Machine
end

section
/-! PROOF. How an engine step ends (60_exceptions.md R111 to R119): completed, or signalled with every cell as
it was; what it writes and what RUN's answer depends on: O15, O38, O39 and O40. -/

namespace Sys2Proof.Machine

/-! ### The length error of R97 -/

/-- All that the length check can report: the first wrong length, its value and the required one. -/
theorem validate_eq_some {s : State} {e : LengthError} (h : validate s = some e) :
    (s.outLen ≠ 32#32 ∧ e = ⟨.output, s.outLen, 32#32⟩) ∨
    (s.keyLen ≠ 32#32 ∧ e = ⟨.key, s.keyLen, 32#32⟩) ∨
    (s.nonceLen ≠ 16#32 ∧ e = ⟨.nonce, s.nonceLen, 16#32⟩) := by
  unfold validate at h
  split at h
  · rename_i hout
    exact .inl ⟨hout, (Option.some.inj h).symm⟩
  · split at h
    · rename_i hkey
      exact .inr (.inl ⟨hkey, (Option.some.inj h).symm⟩)
    · split at h
      · rename_i hnonce
        exact .inr (.inr ⟨hnonce, (Option.some.inj h).symm⟩)
      · cases h

/-! ### All that an engine step can do -/

/-- What a body that completes may change: state words, none of them back to `⊥`, and the 32 bytes of
OUTBUF. -/
structure BodyChanges (s u : State) : Prop where
  status : u.status = s.status
  control : SameControl s u
  mem : u.mem = s.mem ∨ ∃ o : Vector Word32 8, u.mem = storeWords s.mem outBase o.toList
  words : ∀ i, (s.readX i).isSome = true → (u.readX i).isSome = true

theorem bodyChanges_writeXs (s : State) (ws : List (WordIdx × Word32)) : BodyChanges s (s.writeXs ws) where
  status := s.writeXs_status ws
  control := by constructor <;> simp
  mem := .inl (s.writeXs_mem ws)
  words := s.readX_writeXs_isSome ws

theorem bodyChanges_setWords (s : State) (w : Words) : BodyChanges s (s.setWords w) where
  status := rfl
  control := by constructor <;> simp
  mem := .inl rfl
  words := fun i _ => by rw [State.readX_setWords, Option.isSome_some]

theorem bodyChanges_extracted (s : State) (o : Vector Word32 8) : BodyChanges s (s.extracted o) where
  status := rfl
  control := by constructor <;> rfl
  mem := .inr ⟨o, rfl⟩
  words := fun _ h => h

theorem bodyChanges_derived (s : State) (ws : List (WordIdx × Word32)) (w : Words) (o : Vector Word32 8) :
    BodyChanges s (((s.writeXs ws).setWords w).setMem (storeWords s.mem outBase o.toList)) where
  status := s.writeXs_status ws
  control := by constructor <;> simp
  mem := .inr ⟨o, rfl⟩
  words := fun i _ => by rw [State.readX_setMem, State.readX_setWords, Option.isSome_some]

/-- How an engine step ends: its body completed, or it signalled ILLEGAL for a word that spells no command, or
LENGTH for what the check found (R111, R116, R117). -/
inductive StepEnds (s : State) : State → Prop where
  | completed (u : State) (hu : BodyChanges s u) : StepEnds s u.complete
  | illegal (v : Word32) (hv : spellsNothing v = true) : StepEnds s (s.signalIllegal v)
  | length (e : LengthError) (he : validate s = some e) :
      StepEnds s (s.signalError .length e.param e.actual e.required)

theorem Effect.stepEnds {s t : State} (h : Effect s t) : StepEnds s t := by
  cases h with
  | words ws => exact .completed _ (bodyChanges_writeXs s ws)
  | all w hw => exact .completed _ (bodyChanges_setWords s w)
  | out o => exact .completed _ (bodyChanges_extracted s o)
  | derived ws w o => exact .completed _ (bodyChanges_derived s ws w o)
  | illegal v hv =>
    obtain ⟨a, b, c, d, hrep, rfl⟩ := hv
    exact .illegal _ (spellsNothing_qrWord hrep)
  | length e he => exact .length e he

theorem engineStep_ends {s t : State} (h : engineStep s = .next t) : StepEnds s t := by
  obtain ⟨v, -, ⟨⟨e, he⟩, rfl⟩ | ⟨i, -, hexec⟩⟩ := engineStep_eq_next h
  · exact .illegal v (by simp [spellsNothing, he])
  · exact (exec_effect hexec).stepEnds

/-! ### The report of an engine step (R111, R116, R117) -/

/-- STATUS after an engine step. -/
theorem StepEnds.status {s t : State} (h : StepEnds s t) :
    t.status = s.status.completed ∨ t.status = Status.signalled .illegal .none ∨
      ∃ p ∈ [ErrParam.output, .key, .nonce], t.status = Status.signalled .length p := by
  cases h with
  | completed u hu => exact .inl (congrArg Status.completed hu.status)
  | illegal v hv => exact .inr (.inl rfl)
  | length e he =>
    refine .inr (.inr ⟨e.param, ?_, rfl⟩)
    rcases validate_eq_some he with ⟨-, rfl⟩ | ⟨-, rfl⟩ | ⟨-, rfl⟩ <;> simp

theorem StepEnds.idle {s t : State} (h : StepEnds s t) : t.status.busy = false := by
  rcases h.status with hst | hst | ⟨p, -, hst⟩ <;> rw [hst] <;> rfl

/-- STATUS after a LENGTH report, as the host reads it. -/
theorem Status.length_word_mem : ∀ p ∈ [ErrParam.output, .key, .nonce],
    (Status.signalled .length p).word ∈
      [0x00000002#32, 0x00000024#32, 0x00000114#32, 0x00000214#32, 0x00000314#32] := by decide

/-- Settles O15: STATUS after an issue holds BUSY alone, so a completed command reads DONE alone; a signalled
one reads ERR with its code, and for LENGTH with one of the three buffers. -/
theorem anIssuedCommandEndsIdleWithAReport : Obligations.AnIssuedCommandEndsIdleWithAReport := by
  intro s t v h
  have hends := engineStep_ends h
  refine ⟨hends.idle, ?_⟩
  rcases hends.status with hst | hst | ⟨p, hp, hst⟩
  · rw [hst, State.issue_status, Status.issued_completed_word]
    decide
  · rw [hst]
    decide
  · rw [hst]
    exact Status.length_word_mem p hp

/-- Settles O39: a completed command keeps ERR, so a new error comes from a signal, which writes the report
only. -/
theorem anErroredCommandChangesNoData : Obligations.AnErroredCommandChangesNoData := by
  intro s t herr h herr'
  cases engineStep_ends h with
  | completed u hu =>
    have hkeeps : u.status.err = false := (congrArg Status.err hu.status).trans herr
    exact absurd (hkeeps.symm.trans herr') (by decide)
  | illegal v hv => exact ⟨rfl, rfl, rfl⟩
  | length e he => exact ⟨rfl, rfl, rfl⟩

/-! ### The frame of an engine step -/

/-- No register but STATUS, EINFO0 and EINFO1 is written, and of the buffers only OUTBUF. -/
theorem StepEnds.frame {s t : State} (h : StepEnds s t) :
    (∀ a, a < 0x60 ∨ 0x80 ≤ a → t.mem.read a = s.mem.read a) ∧
    t.outLen = s.outLen ∧ t.keyLen = s.keyLen ∧ t.nonceLen = s.nonceLen ∧
    t.cmdLatch = s.cmdLatch ∧ t.replies = s.replies ∧ t.host = s.host ∧ t.turns = s.turns := by
  cases h with
  | completed u hu =>
    obtain ⟨-, ⟨hlatch, -, -, hout, hkey, hnonce, hreplies, hhost, hturns⟩, hmem, -⟩ := hu
    refine ⟨fun a ha => ?_, hout, hkey, hnonce, hlatch, hreplies, hhost, hturns⟩
    rw [State.complete_mem]
    rcases hmem with hmem | ⟨o, hmem⟩
    · rw [hmem]
    · rw [hmem]
      exact s.read_extracted_outside o ha
  | illegal v hv => exact ⟨fun _ _ => rfl, rfl, rfl, rfl, rfl, rfl, rfl, rfl⟩
  | length e he => exact ⟨fun _ _ => rfl, rfl, rfl, rfl, rfl, rfl, rfl, rfl⟩

/-- Settles O40: the frame of each way a step can end. -/
theorem theEngineWritesOnlyWordsOutbufAndReport : Obligations.TheEngineWritesOnlyWordsOutbufAndReport :=
  fun _ _ h => (engineStep_ends h).frame

/-! ### What RUN's answer depends on (42_extract_run.md R100) -/

/-- A word that a list of writes names does not depend on what stood there before. -/
theorem State.readX_writeXs_congr (s s' : State) {ws : List (WordIdx × Word32)} {j : WordIdx}
    (h : j ∈ ws.map Prod.fst) : (s.writeXs ws).readX j = (s'.writeXs ws).readX j := by
  induction ws generalizing s s' with
  | nil => simp at h
  | cons p ws ih =>
    rw [State.writeXs, State.writeXs]
    by_cases htail : j ∈ ws.map Prod.fst
    · exact ih _ _ htail
    · have hhead : p.1 = j := by
        rw [List.map_cons, List.mem_cons] at h
        exact (h.resolve_right htail).symm
      rw [State.readX_writeXs_of_notMem _ _ _ htail, State.readX_writeXs_of_notMem _ _ _ htail,
        State.readX_writeX, State.readX_writeX, if_pos hhead, if_pos hhead]

/-- R69's positions are all sixteen, so LOAD leaves nothing of the old words. -/
theorem State.allWords_placeAll_congr (s s' : State) (k : Vector Word32 8) (n : Vector Word32 4) :
    (s.placeAll k n).allWords = (s'.placeAll k n).allWords := by
  refine collect_congr fun i => ?_
  rw [State.placeAll_eq_writeXs, State.placeAll_eq_writeXs]
  refine State.readX_writeXs_congr s s' ?_
  have hcover : ∀ i : WordIdx, i ∈ cpos ++ kpos ++ npos := by decide
  have hnames : (cpos.zip cval ++ kpos.zip k.toList ++ npos.zip n.toList).map Prod.fst =
      cpos ++ kpos ++ npos := by
    rw [List.map_append, List.map_append, List.map_fst_zip (by decide), List.map_fst_zip (by simp [kpos]),
      List.map_fst_zip (by simp [npos])]
  rw [hnames]
  exact hcover i

/-- The key and nonce words depend on the bytes of KEYBUF and NONCEBUF alone. -/
theorem keyWords_nonceWords_congr {s s' : State}
    (h : ∀ a, 0x20 ≤ a → a < 0x50 → s.mem.read a = s'.mem.read a) :
    s.keyWords = s'.keyWords ∧ s.nonceWords = s'.nonceWords := by
  refine ⟨collect_congr fun i => loadLE_congr fun j hj => ?_,
    collect_congr fun i => loadLE_congr fun j hj => ?_⟩
  · exact h _ (by simp only [keyBase]; omega) (by simp only [keyBase]; omega)
  · exact h _ (by simp only [nonceBase]; omega) (by simp only [nonceBase]; omega)

/-- Words stored one after another leave nothing of the old bytes under them. -/
theorem read_storeWords_congr (m m' : Memory) {off a : Nat} {ws : List Word32} (hlo : off ≤ a)
    (hhi : a < off + 4 * ws.length) : (storeWords m off ws).read a = (storeWords m' off ws).read a := by
  obtain ⟨k, j, hk, hj, rfl⟩ : ∃ k j, k < ws.length ∧ j < 4 ∧ a = off + 4 * k + j :=
    ⟨(a - off) / 4, (a - off) % 4, by omega, by omega, by omega⟩
  rw [read_storeWords m off ws k j hk hj, read_storeWords m' off ws k j hk hj]

/-- Settles O38: the sixteen words RUN permutes come from the constants, the key and the nonce, and the 32
bytes of OUTBUF from the permuted words. -/
theorem runDependsOnKeyAndNonceAlone : Obligations.RunDependsOnKeyAndNonceAlone := by
  intro s s' hlen hlen' hkey hnonce hbytes
  obtain ⟨hkeys, hnonces⟩ := keyWords_nonceWords_congr hbytes
  obtain ⟨k, hk⟩ := (keyWords_isSome_iff s).2 hkey
  obtain ⟨n, hn⟩ := (nonceWords_isSome_iff s).2 hnonce
  obtain ⟨w, hw, hrun⟩ := execRun_next hlen hk hn
  obtain ⟨w', hw', hrun'⟩ := execRun_next hlen' (hkeys ▸ hk) (hnonces ▸ hn)
  rw [State.allWords_placeAll_congr s' s, hw, Option.some_inj] at hw'
  subst hw'
  refine ⟨_, _, hrun, hrun', State.x_ext fun i => ?_, fun a hlo hhi => ?_⟩
  · rw [readX_derived_complete, readX_derived_complete]
  · rw [State.complete_mem, State.complete_mem, derived, derived, State.setMem_mem, State.setMem_mem]
    exact read_storeWords_congr _ _ hlo (by simpa [outBase] using hhi)

end Sys2Proof.Machine
end

section
/-! PROOF. The step of the machine: whose move it is and what it does (00_scope.md R7; 20_memory.md R42;
70_reset_and_hazards.md R130), and what every step keeps: O2, O3, O4, O11, O12, O13, O16, O41 and O42. -/

namespace Sys2Proof.Machine

/-! ### Whose move it is (log 4) -/

theorem step_of_turns_cons {s : State} {a : Turn} {ts : List Turn} (h : s.turns = a :: ts) :
    step s = takeTurn a { s with turns := ts } := by
  simp only [step, moveNext, h]

theorem step_of_turns_nil {s : State} (h : s.turns = []) : step s = takeTurn (defaultTurn s) s := by
  simp only [step, moveNext, h]

/-- With no schedule left a busy engine moves. -/
theorem step_of_busy {s : State} (ht : s.turns = []) (hb : s.status.busy = true) :
    step s = engineStep s := by
  rw [step_of_turns_nil ht, defaultTurn, if_pos hb, takeTurn, engineTurn, if_pos hb]

/-- With no schedule left and an idle engine the host moves. -/
theorem step_of_idle {s : State} (ht : s.turns = []) (hb : s.status.busy = false) :
    step s = hostStep s := by
  rw [step_of_turns_nil ht, defaultTurn, if_neg (by simp [hb]), takeTurn]

/-- A busy engine named by the schedule moves. -/
theorem step_of_engine_turn {s : State} {ts : List Turn} (h : s.turns = .engine :: ts)
    (hb : s.status.busy = true) : step s = engineStep { s with turns := ts } := by
  rw [step_of_turns_cons h, takeTurn, engineTurn, if_pos hb]

/-! ### The engine's turn (60_exceptions.md R110, R111) -/

/-- Settles O11: either way it is the engine's turn, and its step runs the decoded command. -/
theorem aStepRunsTheDecodedCommand : Obligations.AStepRunsTheDecodedCommand := by
  refine fun s v i hlatch hdecode hb => ⟨fun ht => ?_, fun ts ht => ?_⟩
  · rw [step_of_busy ht hb, engineStep_of_decode_ok hlatch hdecode]
  · exact (step_of_engine_turn ht hb).trans (engineStep_of_decode_ok hlatch hdecode)

theorem withFetchWord_toNat (s : State) (v : Word32) :
    s.withFetchWord 32 v.toNat = { s.issue v with turns := .engine :: s.turns } := by
  rw [State.withFetchWord, Nat.mod_eq_of_lt v.isLt, BitVec.ofNat_toNat, BitVec.setWidth_eq, latchForEngine]

/-- Settles O12: the word is issued with the engine next to move, and an encoded command decodes to itself. -/
theorem aFetchedWordRunsNext : Obligations.AFetchedWordRunsNext := by
  intro s i hi
  rw [withFetchWord_toNat]
  exact (aStepRunsTheDecodedCommand _ (encode i) i rfl
    (decodingAnEncodedCommandGivesItBack i hi) rfl).2 s.turns rfl

/-! ### The host's turn (30_encoding.md R61, R62) -/

/-- What a read answers depends on the engine only. -/
theorem memRead_outside (s : State) (addr n : Nat) (hs : List HostOp) (ts : List Turn) :
    memRead addr n { s with turns := ts, host := hs } = memRead addr n s := rfl

/-- A write acts on the engine only. -/
theorem regionWrite_outside (s : State) (r : Region) (addr n : Nat) (v : Word32) (hs : List HostOp)
    (ts : List Turn) : regionWrite { s with turns := ts, host := hs } r addr n v =
      { regionWrite s r addr n v with turns := ts, host := hs } := by
  cases r with
  | ctrl =>
    simp only [regionWrite, regWrite]
    split_ifs <;> rfl
  | keybuf | noncebuf | outbuf | xwin => rfl

theorem memWrite_outside (s : State) (addr n : Nat) (v : Word32) (hs : List HostOp) (ts : List Turn) :
    memWrite addr n v { s with turns := ts, host := hs } =
      (memWrite addr n v s).map fun t => { t with turns := ts, host := hs } := by
  cases hc : checkAccess addr n .wr with
  | none => rw [memWrite_of_illegal v hc, memWrite_of_illegal v hc]; rfl
  | some r =>
    cases hb : s.status.busy with
    | true =>
      rw [memWrite_of_busy (s := s) v hc hb]
      exact memWrite_of_busy v hc hb
    | false =>
      rw [memWrite_of_idle (s := s) v hc hb, Except.map, ← regionWrite_outside]
      exact memWrite_of_idle v hc hb

theorem hostStep_read (s : State) {addr n : Nat} {rest : List HostOp} (h : s.host = .read addr n :: rest) :
    hostStep s = hostRead addr n { s with host := rest } := by
  simp only [hostStep, h]

theorem hostStep_write (s : State) {addr n : Nat} {v : Word32} {rest : List HostOp}
    (h : s.host = .write addr n v :: rest) : hostStep s = hostWrite addr n v { s with host := rest } := by
  simp only [hostStep, h]

theorem hostStep_wait (s : State) {rest : List HostOp} (h : s.host = .wait :: rest) :
    hostStep s = if s.status.busy then .next s else .next { s with host := rest } := by
  simp only [hostStep, h, waitRound_eq]

theorem hostStep_nil (s : State) (h : s.host = []) : hostStep s = .next s := by
  simp only [hostStep, h]

theorem hostRead_ok {addr n : Nat} {s : State} {v : Word32} (h : memRead addr n s = .ok v) :
    hostRead addr n s = .next { s with replies := v :: s.replies } := by
  simp only [hostRead, h]

theorem hostRead_error {addr n : Nat} {s : State} {e : Fault} (h : memRead addr n s = .error e) :
    hostRead addr n s = .fault e := by
  simp only [hostRead, h]

theorem hostWrite_ok {addr n : Nat} {v : Word32} {s t : State} (h : memWrite addr n v s = .ok t) :
    hostWrite addr n v s = .next t := by
  simp only [hostWrite, h]

theorem hostWrite_error {addr n : Nat} {v : Word32} {s : State} {e : Fault}
    (h : memWrite addr n v s = .error e) : hostWrite addr n v s = .fault e := by
  simp only [hostWrite, h]

/-- Settles O13: the move is the head of the host's accesses, which neither sees the schedule nor the accesses
still to be made. -/
theorem aHostTurnMakesTheOldestAccess : Obligations.AHostTurnMakesTheOldestAccess := by
  intro s ts ht
  have hstep : step s = hostStep { s with turns := ts } := step_of_turns_cons ht
  rw [hstep]
  refine ⟨fun addr n rest v hh hv => ?_, fun addr n rest e hh he => ?_, fun addr n v rest t hh hw => ?_,
    fun addr n v rest e hh he => ?_, fun rest hh => ?_, hostStep_nil { s with turns := ts }⟩
  · rw [hostStep_read { s with turns := ts } hh, hostRead_ok ((memRead_outside s addr n rest ts).trans hv)]
  · rw [hostStep_read { s with turns := ts } hh,
      hostRead_error ((memRead_outside s addr n rest ts).trans he)]
  · have hout := memWrite_outside s addr n v rest ts
    rw [hw, Except.map] at hout
    rw [hostStep_write { s with turns := ts } hh, hostWrite_ok hout]
  · have hout := memWrite_outside s addr n v rest ts
    rw [he, Except.map] at hout
    rw [hostStep_write { s with turns := ts } hh, hostWrite_error hout]
  · rw [hostStep_wait { s with turns := ts } hh]
    cases s.status.busy <;> rfl

/-! ### No refusal (60_exceptions.md R112) -/

theorem engineStep_ne_refused (s : State) (r : Refusal) : engineStep s ≠ .refused r := by
  rcases engineStep_outcome s with ⟨t, ht⟩ | hfault
  · rw [ht]; nofun
  · rw [hfault]; nofun

theorem hostStep_ne_refused (s : State) (r : Refusal) : hostStep s ≠ .refused r := by
  unfold hostStep
  split
  · nofun
  · unfold hostRead; split <;> nofun
  · unfold hostWrite; split <;> nofun
  · rw [waitRound_eq]; split <;> nofun

theorem takeTurn_ne_refused (a : Turn) (s : State) (r : Refusal) : takeTurn a s ≠ .refused r := by
  cases a with
  | host => exact hostStep_ne_refused s r
  | engine =>
    rw [takeTurn, engineTurn]
    split
    · exact engineStep_ne_refused s r
    · nofun
  | reset => nofun

/-- Settles O16: every agent's move answers a state or a fault, and an engine step reads `⊥` where it
faults. -/
theorem noStepIsRefusedAndEnginesFaultOnlyUnwritten :
    Obligations.NoStepIsRefusedAndEnginesFaultOnlyUnwritten := by
  refine ⟨fun s r => ?_, fun s e h => ?_⟩
  · rw [step, moveNext]
    split <;> exact takeTurn_ne_refused _ _ r
  · rcases engineStep_outcome s with ⟨t, ht⟩ | hfault
    · rw [ht] at h; cases h
    · rw [hfault] at h; cases h; rfl

/-! ### Reset (70_reset_and_hazards.md R130) -/

/-- Settles O2: the reset event gives every item of the engine its reset value and keeps the outside's own. -/
theorem resetEventDiscardsEverything : Obligations.ResetEventDiscardsEverything :=
  fun _ _ ht => ⟨_, step_of_turns_cons ht, State.reset_readX, State.reset_mem_read,
    rfl, rfl, rfl, rfl, rfl, rfl, rfl, rfl, rfl, rfl⟩

/-! ### The invariant -/

/-- Settles O3: nothing is stored, the engine is idle and reports nothing. -/
theorem resetMeetsTheInvariant : Obligations.ResetMeetsTheInvariant where
  memCanonical := rfl
  memInBuffers := rfl
  statusLegal := rfl
  busyLatched := nofun
  report := rfl

/-- The invariant is about the buffers, CMDLATCH, STATUS and the information registers only. -/
theorem Inv.congr {s t : State} (h : Inv s) (hmem : t.mem = s.mem) (hlatch : t.cmdLatch = s.cmdLatch)
    (hst : t.status = s.status) (h0 : t.einfo0 = s.einfo0) (h1 : t.einfo1 = s.einfo1) : Inv t where
  memCanonical := hmem ▸ h.memCanonical
  memInBuffers := hmem ▸ h.memInBuffers
  statusLegal := hst ▸ h.statusLegal
  busyLatched := by rw [hst, hlatch]; exact h.busyLatched
  report := by rw [State.reportAgrees, hst, h0, h1]; exact h.report

/-- New buffer contents keep the invariant where they are canonical and inside the buffers. -/
theorem Inv.setMem {s : State} (h : Inv s) {m : Memory} (hwf : m.wf = true) (hin : m.inBuffers = true) :
    Inv (s.setMem m) where
  memCanonical := hwf
  memInBuffers := hin
  statusLegal := h.statusLegal
  busyLatched := h.busyLatched
  report := h.report

theorem Inv.issue {s : State} (h : Inv s) (v : Word32) : Inv (s.issue v) where
  memCanonical := h.memCanonical
  memInBuffers := h.memInBuffers
  statusLegal := rfl
  busyLatched := fun _ => rfl
  report := rfl

theorem Status.err_eq_false_of_busy {st : Status} (h : st.legal = true) (hb : st.busy = true) :
    st.err = false := by
  cases herr : st.err with
  | false => rfl
  | true => simp [Status.legal, hb, herr] at h

/-- A busy engine has no error report, so its completion leaves DONE alone. -/
theorem Inv.complete {s : State} (h : Inv s) (hb : s.status.busy = true) : Inv s.complete where
  memCanonical := h.memCanonical
  memInBuffers := h.memInBuffers
  statusLegal := by
    simp [Status.legal, Status.completed, Status.err_eq_false_of_busy h.statusLegal hb]
  busyLatched := nofun
  report := h.report

/-- A signal keeps the invariant where its information words are what its code records. -/
theorem Inv.signalError {s : State} (h : Inv s) {code : ErrCode} {param : ErrParam} {info0 info1 : Word32}
    (hreport : (s.signalError code param info0 info1).reportAgrees = true) :
    Inv (s.signalError code param info0 info1) where
  memCanonical := h.memCanonical
  memInBuffers := h.memInBuffers
  statusLegal := rfl
  busyLatched := nofun
  report := hreport

/-- What a completing body writes keeps the invariant. -/
theorem Inv.bodyChanges {s u : State} (h : Inv s) (hu : BodyChanges s u) : Inv u := by
  obtain ⟨hst, ⟨hlatch, h0, h1, -, -, -, -, -, -⟩, hmem, -⟩ := hu
  rcases hmem with hmem | ⟨o, hmem⟩
  · exact h.congr hmem hlatch hst h0 h1
  · have hout : ∀ j < 4 * o.toList.length, bufferOffset (outBase + j) = true := by
      intro j hj
      rw [Vector.length_toList] at hj
      simp only [bufferOffset, outBase, Bool.or_eq_true, Bool.and_eq_true, decide_eq_true_eq]
      omega
    have hstored := h.setMem (wf_storeWords outBase o.toList h.memCanonical)
      (inBuffers_storeWords o.toList h.memInBuffers hout)
    exact hstored.congr hmem hlatch hst h0 h1

/-- An engine step of a busy engine keeps the invariant. -/
theorem Inv.stepEnds {s t : State} (h : Inv s) (hb : s.status.busy = true) (ht : StepEnds s t) : Inv t := by
  cases ht with
  | completed u hu => exact (h.bodyChanges hu).complete (hu.status ▸ hb)
  | illegal v hv => exact h.signalError (by simp [State.reportAgrees, Status.signalled, hv])
  | length e he =>
    refine h.signalError ?_
    rcases validate_eq_some he with ⟨hne, rfl⟩ | ⟨hne, rfl⟩ | ⟨hne, rfl⟩
    all_goals simp [State.reportAgrees, Status.signalled, hne]

/-- A legal write of the host keeps the invariant. -/
theorem Inv.written {s t : State} {addr n : Nat} {v : Word32} (h : Inv s) (ht : Written s addr n v t) :
    Inv t := by
  cases ht with
  | issue ha => exact h.issue v
  | outLen ha | keyLen ha | nonceLen ha | word ha => exact h.congr rfl rfl rfl rfl rfl
  | bytes hin ha =>
    exact h.setMem (wf_storeLE addr v n h.memCanonical) (inBuffers_storeLE v h.memInBuffers hin)

theorem Inv.hostMove {s t : State} (h : Inv s) (ht : HostMove s t) : Inv t := by
  cases ht with
  | idle => exact h
  | read rest v => exact h.congr rfl rfl rfl rfl rfl
  | write addr n v rest _ hh hb hw =>
    have hpopped : Inv { s with host := rest } := h.congr rfl rfl rfl rfl rfl
    exact hpopped.written hw
  | waited rest hb => exact h.congr rfl rfl rfl rfl rfl

/-- Settles O4: by the three kinds of move, the schedule being outside the invariant. -/
theorem everyStepKeepsTheInvariant : Obligations.EveryStepKeepsTheInvariant := by
  intro s t h hstep
  obtain ⟨ts, -, hmove⟩ := step_cases hstep
  have hs : Inv { s with turns := ts } := h.congr rfl rfl rfl rfl rfl
  rcases hmove with ⟨hb, hengine⟩ | hhost | ⟨-, rfl⟩
  · exact hs.stepEnds hb (engineStep_ends hengine)
  · exact hs.hostMove hhost
  · exact resetMeetsTheInvariant.congr rfl rfl rfl rfl rfl

/-! ### What stays between resets (10_state.md R11, R21; 60_exceptions.md R121) -/

/-- A host write other than an issue keeps the report. -/
theorem Written.report {s t : State} {addr n : Nat} {v : Word32} (h : Written s addr n v t)
    (ha : addr ≠ 0x00) : t.status = s.status ∧ t.einfo0 = s.einfo0 ∧ t.einfo1 = s.einfo1 := by
  cases h with
  | issue hcmd => exact absurd hcmd ha
  | outLen | keyLen | nonceLen | bytes | word => exact ⟨rfl, rfl, rfl⟩

/-- A host move whose access is no write to CMD keeps the report. -/
theorem HostMove.report {s t : State} (h : HostMove s t)
    (hcmd : ∀ n v, s.host.head? ≠ some (.write 0x00 n v)) :
    t.status = s.status ∧ t.einfo0 = s.einfo0 ∧ t.einfo1 = s.einfo1 := by
  cases h with
  | idle | read | waited => exact ⟨rfl, rfl, rfl⟩
  | write addr n v rest _ hh hb hw =>
    have ha : addr ≠ 0x00 := by
      rintro rfl
      exact hcmd n v (by rw [hh, List.head?_cons])
    exact hw.report ha

/-- Settles O41: an idle engine takes no step, so only the host moves, and only its CMD write reports. -/
theorem theReportStaysUntilTheNextIssueOrReset : Obligations.TheReportStaysUntilTheNextIssueOrReset := by
  intro s t hidle hreset hcmd hstep
  obtain ⟨ts, -, ⟨hb, -⟩ | hhost | ⟨ht, -⟩⟩ := step_cases hstep
  · rw [hidle] at hb
    cases hb
  · exact hhost.report hcmd
  · exact absurd (by rw [ht, List.head?_cons]) hreset

/-- Every buffer byte and state word that held a value still holds one. -/
def KeepsWritten (s t : State) : Prop :=
  (∀ a, (s.mem.read a).isSome = true → (t.mem.read a).isSome = true) ∧
    ∀ i, (s.readX i).isSome = true → (t.readX i).isSome = true

theorem KeepsWritten.refl (s : State) : KeepsWritten s s := ⟨fun _ => id, fun _ => id⟩

theorem StepEnds.keepsWritten {s t : State} (h : StepEnds s t) : KeepsWritten s t := by
  cases h with
  | completed u hu =>
    refine ⟨fun a ha => ?_, hu.words⟩
    rcases hu.mem with hmem | ⟨o, hmem⟩
    · rwa [State.complete_mem, hmem]
    · rw [State.complete_mem, hmem]
      exact read_storeWords_isSome s.mem outBase o.toList a ha
  | illegal v hv => exact .refl s
  | length e he => exact .refl s

theorem read_storeLE_isSome {m : Memory} {a : Nat} (off : Nat) (v : Word32) (n : Nat)
    (h : (m.read a).isSome = true) : ((storeLE m off v n).read a).isSome = true := by
  rw [read_storeLE]
  split
  · rfl
  · exact h

theorem Written.keepsWritten {s t : State} {addr n : Nat} {v : Word32} (h : Written s addr n v t) :
    KeepsWritten s t := by
  cases h with
  | issue | outLen | keyLen | nonceLen => exact .refl s
  | bytes hin ha => exact ⟨fun _ => read_storeLE_isSome addr v n, fun _ => id⟩
  | word ha => exact ⟨fun _ => id, s.readX_writeXs_isSome [(xwinIdx addr, v)]⟩

theorem HostMove.keepsWritten {s t : State} (h : HostMove s t) : KeepsWritten s t := by
  cases h with
  | idle | read | waited => exact .refl s
  | write addr n v rest _ hh hb hw => exact hw.keepsWritten

/-- Settles O42: no engine step and no host access takes a value away. -/
theorem onlyResetUnwritesACell : Obligations.OnlyResetUnwritesACell := by
  intro s t hreset hstep
  obtain ⟨ts, -, ⟨-, hengine⟩ | hhost | ⟨ht, -⟩⟩ := step_cases hstep
  · exact (engineStep_ends hengine).keepsWritten
  · exact hhost.keepsWritten
  · exact absurd (by rw [ht, List.head?_cons]) hreset

end Sys2Proof.Machine
end

section
/-! PROOF. The host's accesses over one and several steps (20_memory.md R41 to R44; 30_encoding.md R62;
70_reset_and_hazards.md R137): O53, O54, O55 and O56. -/

namespace Sys2Proof.Machine

/-! ### While a command is latched (20_memory.md R44) -/

/-- Settles O53: a busy engine passes no write and ends no WAIT, so the host can only read registers. -/
theorem noHostMoveReachesALatchedCommand : Obligations.NoHostMoveReachesALatchedCommand := by
  intro s t hb h
  cases hostStep_move h with
  | idle | read => rfl
  | write addr n v rest _ hh hidle hw => exact absurd (hb.symm.trans hidle) (by decide)
  | waited rest hidle => exact absurd (hb.symm.trans hidle) (by decide)

/-! ### Reads and repeated writes (20_memory.md R41) -/

theorem hostRead_eq_next {addr n : Nat} {s t : State} (h : hostRead addr n s = .next t) :
    ∃ v, memRead addr n s = .ok v ∧ t = { s with replies := v :: s.replies } := by
  unfold hostRead at h
  split at h
  · rename_i v hv
    cases h
    exact ⟨v, hv, rfl⟩
  · cases h

/-- A write to another register than CMD, to a buffer or to a state word overwrites what it wrote. -/
theorem regionWrite_regionWrite {s : State} (r : Region) {addr : Nat} (n : Nat) (v : Word32)
    (hwf : s.mem.wf = true) (ha : addr ≠ 0x00) :
    regionWrite (regionWrite s r addr n v) r addr n v = regionWrite s r addr n v := by
  cases r with
  | ctrl =>
    simp only [regionWrite, regWrite, if_neg ha]
    split_ifs <;> rfl
  | keybuf | noncebuf | outbuf =>
    exact congrArg s.setMem (storeLE_storeLE addr v n hwf)
  | xwin => simp only [regionWrite, State.writeX, Vector.set_set]

/-- A write other than an issue can be repeated. -/
theorem memWrite_memWrite {s t : State} {addr n : Nat} {v : Word32} (hwf : s.mem.wf = true)
    (ha : addr ≠ 0x00) (h : memWrite addr n v s = .ok t) : memWrite addr n v t = .ok t := by
  obtain ⟨hst, -, -⟩ := (memWrite_written h).2.report ha
  obtain ⟨r, hr, hb, rfl⟩ := memWrite_eq_ok h
  rw [memWrite_of_idle v hr (hst ▸ hb), regionWrite_regionWrite r n v hwf ha]

/-- An issue leaves the engine busy, so CMD takes no second write. -/
theorem memWrite_cmd_twice {s t : State} {v : Word32} (h : memWrite 0x00 4 v s = .ok t) :
    memWrite 0x00 4 v t = .error .busyAccess := by
  obtain ⟨-, -, hb, -⟩ := memWrite_eq_ok h
  rw [memWrite_cmd v hb] at h
  cases h
  exact memWrite_of_busy v checkAccess_cmd rfl

/-- Settles O54: a read answers a value only, and a write's effect is there after the first of two. -/
theorem readsHaveNoSideEffectAndWritesAreIdempotent :
    Obligations.ReadsHaveNoSideEffectAndWritesAreIdempotent :=
  ⟨fun _ _ _ _ => hostRead_eq_next, fun _ _ _ _ _ => memWrite_memWrite, fun _ _ _ => memWrite_cmd_twice⟩

/-! ### Runs of several steps -/

theorem core_run_zero (s : State) : Sys2Proof.core.run 0 s = .next s := rfl

/-- A run goes on from where its first part ends. -/
theorem core_run_add {k : Nat} (m : Nat) {s t : State} (h : Sys2Proof.core.run k s = .next t) :
    Sys2Proof.core.run (k + m) s = Sys2Proof.core.run m t := by
  induction k generalizing s with
  | zero =>
    cases h
    rw [Nat.zero_add]
  | succ k ih =>
    rw [Nat.add_right_comm]
    cases hs : step s with
    | next u =>
      rw [core_run_succ hs] at h ⊢
      exact ih h
    | fault | refused => simp [Host.Core.run, Host.Check.core_step, hs] at h

/-- Where an idle engine's schedule names nobody, a step makes the host's oldest write. -/
theorem core_run_write {s t : State} {m addr n : Nat} {v : Word32} {rest : List HostOp}
    (hb : s.status.busy = false) (ht : s.turns = [])
    (hw : memWrite addr n v { s with host := rest } = .ok t) :
    Sys2Proof.core.run (m + 1) { s with host := .write addr n v :: rest } = Sys2Proof.core.run m t := by
  have hstep : step { s with host := .write addr n v :: rest } = .next t := by
    rw [step_of_idle (s := { s with host := .write addr n v :: rest }) ht hb, hostStep_write _ rfl]
    exact hostWrite_ok hw
  exact core_run_succ hstep

theorem host_nil_eq_self {s : State} (h : s.host = []) : { s with host := [] } = s := by rw [← h]

theorem turns_nil_eq_self {s : State} (h : s.turns = []) : { s with turns := [] } = s := by rw [← h]

/-! ### SETLENS (30_encoding.md R62) -/

theorem core_run_setLens {s : State} (hb : s.status.busy = false) (ht : s.turns = []) :
    Sys2Proof.core.run 3 { s with host := setLens } =
      .next { s with host := [], outLen := 32#32, keyLen := 32#32, nonceLen := 16#32 } := by
  calc Sys2Proof.core.run 3 { s with host := setLens }
      = Sys2Proof.core.run 2 { s with
          host := [.write 0x14 4 32#32, .write 0x18 4 16#32], outLen := 32#32 } :=
        core_run_write hb ht (memWrite_ctrl _ hb (by decide))
    _ = Sys2Proof.core.run 1 { s with
          host := [.write 0x18 4 16#32], outLen := 32#32, keyLen := 32#32 } :=
        core_run_write (s := { s with outLen := 32#32 }) hb ht (memWrite_ctrl _ hb (by decide))
    _ = Sys2Proof.core.run 0 { s with
          host := [], outLen := 32#32, keyLen := 32#32, nonceLen := 16#32 } :=
        core_run_write (s := { s with outLen := 32#32, keyLen := 32#32 }) hb ht
          (memWrite_ctrl _ hb (by decide))

/-! ### SETKEY and SETNONCE (30_encoding.md R62) -/

/-- The bytes of a word of four bytes are the four, in order: the word is what would be loaded from them. -/
theorem byteOf_wordOfBytes (b0 b1 b2 b3 : Byte) {j : Nat} (hj : j < 4) :
    some (byteOf (wordOfBytes b0 b1 b2 b3) j) = [b0, b1, b2, b3][j]? := by
  have hload : loadLE32 [(0, b0), (1, b1), (2, b2), (3, b3)] 0 = some (wordOfBytes b0 b1 b2 b3) :=
    loadLE32_eq_wordOfBytes rfl rfl rfl rfl
  rw [← byteOf_loadLE (le_refl 4) hload j hj]
  interval_cases j <;> rfl

/-- The word writes of `setBytes` inside KEYBUF or NONCEBUF put the bytes in their places and nothing else. -/
theorem exists_core_run_setBytes {s : State} (hb : s.status.busy = false) (ht : s.turns = []) {m off : Nat}
    {bs : List Byte} (hlen : bs.length = 4 * m) (hal : off % 4 = 0) (hlo : 0x20 ≤ off)
    (hhi : off + 4 * m ≤ 0x50) :
    ∃ mem : Memory,
      Sys2Proof.core.run m { s with host := setBytes off bs } = .next { s with host := [], mem := mem } ∧
      (∀ j < 4 * m, mem.read (off + j) = bs[j]?) ∧
      ∀ a, a < off ∨ off + 4 * m ≤ a → mem.read a = s.mem.read a := by
  induction m generalizing s off bs with
  | zero =>
    obtain rfl := List.length_eq_zero_iff.1 hlen
    exact ⟨s.mem, rfl, fun j hj => absurd hj (Nat.not_lt_zero j), fun _ _ => rfl⟩
  | succ m ih =>
    obtain ⟨b0, b1, b2, b3, bs, rfl⟩ : ∃ b0 b1 b2 b3 bs', bs = b0 :: b1 :: b2 :: b3 :: bs' := by
      match bs, hlen with
      | b0 :: b1 :: b2 :: b3 :: bs', _ => exact ⟨b0, b1, b2, b3, bs', rfl⟩
    obtain ⟨mem, hrun, hin, hout⟩ :=
      ih (s := s.setMem (storeLE s.mem off (wordOfBytes b0 b1 b2 b3) 4)) (off := off + 4) (bs := bs) hb ht
        (by simp only [List.length_cons] at hlen; omega) (by omega) (by omega) (by omega)
    have hwrite := memWrite_buffer (s := { s with host := setBytes (off + 4) bs })
      (wordOfBytes b0 b1 b2 b3) hb (n := 4) (by decide) hal (.inl ⟨hlo, by omega⟩)
    refine ⟨mem, (core_run_write hb ht hwrite).trans hrun, fun j hj => ?_, fun a ha => ?_⟩
    · by_cases hfirst : j < 4
      · rw [hout _ (by omega), State.setMem_mem, read_storeLE_inside _ _ _ hfirst,
          byteOf_wordOfBytes _ _ _ _ hfirst]
        interval_cases j <;> rfl
      · obtain ⟨i, rfl⟩ : ∃ i, j = i + 4 := ⟨j - 4, by omega⟩
        have hi := hin i (by omega)
        rw [Nat.add_assoc, Nat.add_comm 4 i] at hi
        rw [hi]
        rfl
    · rw [hout a (by omega), State.setMem_mem, read_storeLE_outside _ _ (by omega)]

/-- A vector of bytes set word by word. -/
theorem exists_core_run_setVector {s : State} (hb : s.status.busy = false) (ht : s.turns = [])
    (hh : s.host = []) {m : Nat} (off : Nat) (bs : Vector Byte (4 * m)) (hal : off % 4 = 0)
    (hlo : 0x20 ≤ off) (hhi : off + 4 * m ≤ 0x50) :
    ∃ mem : Memory,
      Sys2Proof.core.run m { s with host := setBytes off bs.toList } = .next { s with mem := mem } ∧
      (∀ j : Fin (4 * m), mem.read (off + j.val) = some bs[j]) ∧
      ∀ a, a < off ∨ off + 4 * m ≤ a → mem.read a = s.mem.read a := by
  obtain ⟨mem, hrun, hin, hout⟩ := exists_core_run_setBytes hb ht bs.length_toList hal hlo hhi
  refine ⟨mem, ?_, fun j => ?_, hout⟩
  · rw [hrun, ← hh]
  · rw [hin j.val j.isLt]
    simp

/-- Settles O55: each pseudo-instruction is its word writes, made one a step by the host of an idle engine. -/
theorem thePseudoInstructionsWriteTheirCells : Obligations.ThePseudoInstructionsWriteTheirCells := by
  intro s hb ht hh
  refine ⟨?_, fun k => ?_, fun n => ?_, fun i v => ?_⟩
  · rw [core_run_setLens hb ht, ← hh]
  · exact exists_core_run_setVector hb ht hh (m := 8) 0x20 k (by decide) (by decide) (by decide)
  · exact exists_core_run_setVector hb ht hh (m := 4) 0x40 n (by decide) (by decide) (by decide)
  · refine core_run_write hb ht (rest := []) ?_
    rw [host_nil_eq_self hh]
    exact memWrite_xwin i v hb

/-! ### WAIT (30_encoding.md R62; 70_reset_and_hazards.md R137) -/

/-- A round of WAIT at a busy engine uses up its turn and nothing else. -/
theorem core_run_waiting {s : State} {rest : List HostOp} {k : Nat} (hb : s.status.busy = true)
    (hh : s.host = .wait :: rest) (ht : s.turns = List.replicate k .host) :
    Sys2Proof.core.run k s = .next { s with turns := [] } := by
  induction k generalizing s with
  | zero => exact congrArg Host.Outcome.next (turns_nil_eq_self ht).symm
  | succ k ih =>
    have hround : step s = .next { s with turns := List.replicate k .host } := by
      rw [step_of_turns_cons ht, takeTurn,
        hostStep_wait { s with turns := List.replicate k .host } hh, if_pos hb]
    rw [core_run_succ hround]
    exact ih (s := { s with turns := List.replicate k .host }) hb hh rfl

/-- Settles O56: the host's turns pass, the engine's step leaves BUSY 0, and the next round leaves the
WAIT. -/
theorem aWaitEndsAfterTheEngineStep : Obligations.AWaitEndsAfterTheEngineStep := by
  intro s t rest k hb hh ht h
  have hends := engineStep_ends h
  obtain ⟨-, -, -, -, -, -, hhost, hturns⟩ := hends.frame
  have hengine : step { s with turns := [] } = .next t :=
    (step_of_busy (s := { s with turns := [] }) rfl hb).trans h
  have hleave : step t = .next { t with host := rest } := by
    rw [step_of_idle hturns hends.idle, hostStep_wait t (hhost.trans hh), hends.idle]
    rfl
  have hwaiting := core_run_waiting hb hh ht
  refine ⟨hwaiting, ?_, ?_⟩
  · rw [core_run_add 1 hwaiting, core_run_succ hengine, core_run_zero]
  · rw [core_run_add 2 hwaiting, core_run_succ hengine, core_run_succ hleave, core_run_zero]

end Sys2Proof.Machine
end

section
/-! PROOF. Several engines on one platform (00_scope.md R2; 20_memory.md R30; 60_exceptions.md R124; logs 12
and 18): O57 and O58. -/

namespace Sys2Proof.Machine

/-! ### A move leaves the other engines alone (R124) -/

/-- Every window stays where it was, and every engine that `other` speaks of is as before. -/
def OthersKept (p p' : Platform) (other : Nat → Mounted → Prop) : Prop :=
  p'.map Mounted.base = p.map Mounted.base ∧ p'.wf = true ∧
    ∀ (j : Nat) (m : Mounted), p[j]? = some m → other j m → p'[j]? = some m

theorem onEngine_othersKept {p p' : Platform} {k : Nat} {f : State → Result} (hp : p.wf = true)
    (h : p.onEngine k f = .next p') : OthersKept p p' fun j _ => j ≠ k := by
  obtain ⟨hbases, hkept⟩ := onEngine_frame h
  exact ⟨hbases, platform_wf_of_bases hbases hp, fun j m hm hj => (hkept j hj).trans hm⟩

/-- An access goes to an engine whose window holds the address, so those whose windows do not are others. -/
theorem onRoute_othersKept {p p' : Platform} {a : Nat} {r : Nat × Nat} {f : State → Result}
    (hp : p.wf = true) (hr : p.route a = some r) (h : p.onEngine r.1 f = .next p') :
    OthersKept p p' fun _ m => m.offset a = none := by
  obtain ⟨hbases, hwf, hkept⟩ := onEngine_othersKept hp h
  refine ⟨hbases, hwf, fun j m hm hoff => hkept j m hm ?_⟩
  rintro rfl
  obtain ⟨m', hm', hoff'⟩ := route_eq_some hr
  rw [hm, Option.some_inj] at hm'
  rw [← hm', hoff] at hoff'
  cases hoff'

/-- Settles O57: a move is a move on one engine, the one it names or the one its address is routed to. -/
theorem enginesOfAPlatformAreIndependent : Obligations.EnginesOfAPlatformAreIndependent := by
  intro p p' mv hp h
  cases mv with
  | busRead a | busWrite a =>
    rw [Platform.move] at h
    split at h
    · cases h
    · rename_i r hr
      exact onRoute_othersKept hp hr h
  | engine k => exact onEngine_othersKept (f := engineTurn) hp h
  | reset k => exact onEngine_othersKept (f := takeTurn .reset) hp h
  | scheduled k => exact onEngine_othersKept (f := moveNext) hp h

/-! ### BASE + offset (00_scope.md R2; 20_memory.md R30) -/

theorem onEngine_of_next {p : Platform} {k : Nat} {m : Mounted} {f : State → Result} {t : State}
    (hk : p[k]? = some m) (h : f m.engine = .next t) :
    p.onEngine k f = .next (p.set k { m with engine := t }) := by
  simp only [Platform.onEngine, hk, h]

theorem onEngine_of_fault {p : Platform} {k : Nat} {m : Mounted} {f : State → Result} {e : Fault}
    (hk : p[k]? = some m) (h : f m.engine = .fault e) : p.onEngine k f = .fault e := by
  simp only [Platform.onEngine, hk, h]

theorem move_busRead {p : Platform} {a n : Nat} {r : Nat × Nat} (h : p.route a = some r) :
    p.move (.busRead a n) = p.onEngine r.1 (hostRead r.2 n) := by
  simp only [Platform.move, h]

theorem move_busWrite {p : Platform} {a n : Nat} {v : Word32} {r : Nat × Nat} (h : p.route a = some r) :
    p.move (.busWrite a n v) = p.onEngine r.1 (hostWrite r.2 n v) := by
  simp only [Platform.move, h]

/-- Settles O58: BASE + offset is routed to that engine at that offset, and its outcome is the platform's. -/
theorem baseAndOffsetReachTheMountedEngine : Obligations.BaseAndOffsetReachTheMountedEngine := by
  intro p k o n m v hp hk ho
  obtain ⟨-, hlegal, hapart⟩ := (platform_wf_iff p).1 hp
  have hroute := route_base_add hlegal hapart hk ho
  rw [move_busRead hroute, move_busWrite hroute]
  exact ⟨fun _ => onEngine_of_next hk, fun _ => onEngine_of_next hk, fun _ => onEngine_of_fault hk,
    fun _ => onEngine_of_fault hk⟩

end Sys2Proof.Machine
end
